-- ==== Sys2Proof/Word.lean ====
section
/-! DEFINITION. The encoded word, the 8-bit characters and the tokens of the encoder core. -/

namespace Sys2Proof

/-- An encoded word, `word[31:0]`, bit 31 the most significant (spec/00_scope.md R6, spec/30_encoding.md R33). -/
abbrev Word := BitVec 32

/-- A character: an 8-bit code holding ASCII (spec/30_encoding.md R30, spec/92_eei_decisions.md D2). -/
abbrev Char8 := BitVec 8

/-- A token: its characters, first character first. Equality is byte by byte (R30, D2). -/
abbrev Token := List Char8

/-- The token whose characters are the ASCII codes of `cs`. -/
def tokenOf (cs : List Char) : Token := cs.map fun c => BitVec.ofNat 8 c.toNat

end Sys2Proof
end

