-- ==== Sys2Proof/Machine/Types.lean ====
section
/-! DEFINITION. The fixed sets of names and the records the encoder core works with: format classes, mnemonics,
error kinds, results, table rows, requests. -/

namespace Sys2Proof.Machine

/-- The six instruction-word layouts (spec/00_scope.md R8 "Format class"). -/
inductive FormatClass
  | registerRegister
  | registerImmediate
  | load
  | store
  | branch
  | jump
  deriving DecidableEq, Repr

/-- The twenty mnemonics known to the encoders (spec/41_dispatcher.md R56). -/
inductive Mnemonic
  | add | sub | and | or
  | addi | andi | srli
  | lb | lh | lw | lbu | lhu
  | sb | sh | sw
  | beq | bne | blt | bge
  | jal
  deriving DecidableEq, Repr

/-- The seven error kinds (spec/60_exceptions.md R101). -/
inductive ErrorKind
  /-- wrong operand count for the matched format -/
  | invalidFormat
  /-- a register token does not resolve via RegisterTable -/
  | invalidRegister
  /-- an immediate token is not a parseable integer -/
  | invalidImmediate
  /-- Load, Store: outside 12-bit signed. Jump: halved value outside 20-bit signed -/
  | immediateOutOfRange
  /-- SRLI immediate outside 0 to 31 -/
  | invalidShiftAmount
  /-- a mnemonic handed to an encoder that does not implement it -/
  | unsupportedInstruction
  /-- mnemonic absent from the dispatch table -/
  | unknownInstruction
  deriving DecidableEq, Repr

/-- The result of one transaction: exactly one of three (spec/30_encoding.md R32). `empty` and `error` carry no
word (spec/92_eei_decisions.md D5), an error carries its kind and nothing else (spec/60_exceptions.md R103). -/
inductive Result
  | empty
  | word (w : Word)
  | error (k : ErrorKind)
  deriving DecidableEq, Repr

/-- One entry of the RegisterTable (spec/10_state.md R10): a key string and an index 0 to 31. -/
structure RegEntry where
  key : Token
  index : Fin 32
  deriving DecidableEq, Repr

/-- One row of the dispatch table (spec/10_state.md R11): format class and constant fields. -/
structure DispatchRow where
  mnemonic : Token
  format : FormatClass
  opcode : BitVec 7
  funct3 : Option (BitVec 3)
  funct7 : Option (BitVec 7)
  deriving DecidableEq, Repr

/-- Where a request enters the block: at the dispatcher, the one external entry point (spec/41_dispatcher.md), or
at one format encoder driven directly as a sub-block (R59, R63; log 3). -/
inductive Entry
  | dispatcher
  | encoder (f : FormatClass)
  deriving DecidableEq, Repr

/-- One request: a token list (spec/30_encoding.md R30) and where it enters. -/
structure Request where
  entry : Entry
  tokens : List Token
  deriving DecidableEq, Repr

end Sys2Proof.Machine
end

