-- ==== Sys2Proof/Machine/Operands.lean ====
section
/-! DEFINITION. The operand forms: register names, immediates, and the shared immediate utilities
(spec/30_encoding.md R40 to R46, spec/40_register_table.md R50). -/

namespace Sys2Proof.Machine

/-- `RegResolve(t)` (spec/40_register_table.md R50): the index of the entry whose key is exactly `t`, or none. The
table is the argument: the block's is the field `regTable` of State. -/
def regResolve (table : List RegEntry) (t : Token) : Option (Fin 32) :=
  (table.find? fun e => e.key == t).map RegEntry.index

/-- `DIGIT` (spec/30_encoding.md R40): one character '0' to '9', with its value. -/
def digitValue (c : Char8) : Option Nat :=
  if 48 ≤ c.toNat ∧ c.toNat ≤ 57 then some (c.toNat - 48) else none

/-- The decimal value of characters read after digits of value `acc`, or none at the first that is no digit. -/
def parseDigits (acc : Nat) : Token → Option Nat
  | [] => some acc
  | c :: cs =>
    match digitValue c with
    | some d => parseDigits (acc * 10 + d) cs
    | none => none

/-- `DIGIT+` over the whole of the token (R40). -/
def parseUnsigned : Token → Option Nat
  | [] => none
  | c :: cs => parseDigits 0 (c :: cs)

/-- The character '-'. -/
def minusSign : Char8 := 45

/-- The character '+'. -/
def plusSign : Char8 := 43

/-- `ParseImm(t)` (R40): `SIGN? DIGIT+` over the whole token, an unbounded integer. The grammar and the unbounded
value are the spec's decisions D7 and D8 (UNVERIFIED: log 7). -/
def parseImm : Token → Option Int
  | [] => none
  | c :: cs =>
    if c = minusSign then (parseUnsigned cs).map fun n : Nat => -(n : Int)
    else if c = plusSign then (parseUnsigned cs).map fun n : Nat => (n : Int)
    else (parseUnsigned (c :: cs)).map fun n : Nat => (n : Int)

/-- `tc_N(v)` (R41): the N-bit vector whose unsigned value is `v mod 2^N`. For a value outside N-bit signed the
low N bits are kept: the spec's decision D9 (UNVERIFIED: log 8). -/
def tc (n : Nat) (v : Int) : BitVec n := BitVec.ofInt n v

/-- `InRange(lo, hi, v)` (R42). -/
def inRange (lo hi v : Int) : Bool := decide (lo ≤ v) && decide (v ≤ hi)

/-- `u5(i)` (R43): the plain unsigned 5-bit binary of `i`, applied to 0 to 31 only. -/
def u5 (i : Nat) : BitVec 5 := BitVec.ofNat 5 i

/-- `half(v)` (R44): the quotient by 2 rounded toward zero. The rounding is the spec's decision D10 (UNVERIFIED:
log 9). -/
def half (v : Int) : Int := v.tdiv 2

/-- `LS_IMM_MIN` (spec/00_scope.md R5). -/
abbrev lsImmMin : Int := -2048

/-- `LS_IMM_MAX` (R5). -/
abbrev lsImmMax : Int := 2047

/-- `JAL_H_MIN` (R5; the 20-bit signed range, spec/90_conflicts.md C2; log 10). -/
abbrev jalHMin : Int := -524288

/-- `JAL_H_MAX` (R5; spec/90_conflicts.md C2; log 10). -/
abbrev jalHMax : Int := 524287

/-! The word layouts, fields listed from bit 31 downward as the spec lists them. -/

/-- RegisterRegister (spec/30_encoding.md R34). -/
def rrWord (funct7 : BitVec 7) (rs2 rs1 : BitVec 5) (funct3 : BitVec 3) (rd : BitVec 5) : Word :=
  funct7 ++ rs2 ++ rs1 ++ funct3 ++ rd ++ 0b0110011#7

/-- RegisterImmediate, immediate form (R35). -/
def riWord (imm12 : BitVec 12) (rs1 : BitVec 5) (funct3 : BitVec 3) (rd : BitVec 5) : Word :=
  imm12 ++ rs1 ++ funct3 ++ rd ++ 0b0010011#7

/-- RegisterImmediate, shift form: the high seven bits are a constant (R35). -/
def shiftWord (shamt rs1 rd : BitVec 5) : Word :=
  0b0000000#7 ++ shamt ++ rs1 ++ 0b101#3 ++ rd ++ 0b0010011#7

/-- Load (R36). -/
def loadWord (imm12 : BitVec 12) (rs1 : BitVec 5) (funct3 : BitVec 3) (rd : BitVec 5) : Word :=
  imm12 ++ rs1 ++ funct3 ++ rd ++ 0b0000011#7

/-- Store: the immediate is split, the function code is 010 for every store (R37, spec/45_store.md R87). -/
def storeWord (v : BitVec 12) (rs2 rs1 : BitVec 5) : Word :=
  v.extractLsb' 5 7 ++ rs2 ++ rs1 ++ 0b010#3 ++ v.extractLsb' 0 5 ++ 0b0100011#7

/-- `hi7 = v[11] || v[9:4]`, placed at `word[31:25]` (the Branch permutation, R45). -/
def branchHi7 (v : BitVec 12) : BitVec 7 := v.extractLsb' 11 1 ++ v.extractLsb' 4 6

/-- `lo5 = v[10] || v[3:0]`, placed at `word[11:7]` (R45). -/
def branchLo5 (v : BitVec 12) : BitVec 5 := v.extractLsb' 10 1 ++ v.extractLsb' 0 4

/-- Branch (R38). -/
def branchWord (v : BitVec 12) (rs2 rs1 : BitVec 5) (funct3 : BitVec 3) : Word :=
  branchHi7 v ++ rs2 ++ rs1 ++ funct3 ++ branchLo5 v ++ 0b1100011#7

/-- The Jump permutation (R46): `word[31:12]`. -/
def jumpHi20 (v : BitVec 20) : BitVec 20 :=
  v.extractLsb' 19 1 ++ v.extractLsb' 0 10 ++ v.extractLsb' 10 1 ++ v.extractLsb' 11 8

/-- Jump (R39). -/
def jumpWord (v : BitVec 20) (rd : BitVec 5) : Word := jumpHi20 v ++ rd ++ 0b1101111#7

end Sys2Proof.Machine
end

