-- ==== Sys2Proof/Syntax.lean ====
section
/-! DEFINITION. The instructions: one constructor per row of spec/opcode_table.json. -/

namespace Sys2Proof

/-- An encode operation (spec/30_encoding.md R47): the mnemonic is the constructor, `ops` are the operand tokens
that follow it in the request, AS PRESENTED: how many there are, whether they name registers and whether the
immediate is readable is checked by the operation itself, in the order of spec/60_exceptions.md R105. Operand
order per format: R49. -/
inductive Instr
  -- RegisterRegister: rd, rs1, rs2 (spec/42_register_register.md R66 to R69)
  | add (ops : List Token)
  | sub (ops : List Token)
  | and (ops : List Token)
  | or (ops : List Token)
  -- RegisterImmediate: rd, rs1, imm (spec/43_register_immediate.md R74 to R76)
  | addi (ops : List Token)
  | andi (ops : List Token)
  | srli (ops : List Token)
  -- Load: rd, rs1, imm (spec/44_load.md R81 to R85)
  | lb (ops : List Token)
  | lh (ops : List Token)
  | lw (ops : List Token)
  | lbu (ops : List Token)
  | lhu (ops : List Token)
  -- Store: rs2, rs1, imm (spec/45_store.md R88 to R90)
  | sb (ops : List Token)
  | sh (ops : List Token)
  | sw (ops : List Token)
  -- Branch: rs1, rs2, imm (spec/46_branch.md R93 to R96)
  | beq (ops : List Token)
  | bne (ops : List Token)
  | blt (ops : List Token)
  | bge (ops : List Token)
  -- Jump: rd, imm (spec/47_jump.md R99)
  | jal (ops : List Token)
  deriving DecidableEq, Repr

end Sys2Proof
end

