-- ==== Sys2Proof/Machine/Tables.lean ====
section
/-! DEFINITION. The constants of the block: the RegisterTable (spec/10_state.md R10), the dispatch table
(spec/41_dispatcher.md R56), the spelling of the mnemonics and each encoder's own set of mnemonics. -/

namespace Sys2Proof.Machine

/-- The 32 entries of the RegisterTable (R10). -/
def registerRom : List RegEntry :=
  [⟨tokenOf ['x', '0'], 0⟩, ⟨tokenOf ['x', '1'], 1⟩, ⟨tokenOf ['x', '2'], 2⟩, ⟨tokenOf ['x', '3'], 3⟩,
   ⟨tokenOf ['x', '4'], 4⟩, ⟨tokenOf ['x', '5'], 5⟩, ⟨tokenOf ['x', '6'], 6⟩, ⟨tokenOf ['x', '7'], 7⟩] ++
  [⟨tokenOf ['x', '8'], 8⟩, ⟨tokenOf ['x', '9'], 9⟩, ⟨tokenOf ['x', '1', '0'], 10⟩, ⟨tokenOf ['x', '1', '1'], 11⟩,
   ⟨tokenOf ['x', '1', '2'], 12⟩, ⟨tokenOf ['x', '1', '3'], 13⟩, ⟨tokenOf ['x', '1', '4'], 14⟩,
   ⟨tokenOf ['x', '1', '5'], 15⟩] ++
  [⟨tokenOf ['x', '1', '6'], 16⟩, ⟨tokenOf ['x', '1', '7'], 17⟩, ⟨tokenOf ['x', '1', '8'], 18⟩,
   ⟨tokenOf ['x', '1', '9'], 19⟩, ⟨tokenOf ['x', '2', '0'], 20⟩, ⟨tokenOf ['x', '2', '1'], 21⟩,
   ⟨tokenOf ['x', '2', '2'], 22⟩, ⟨tokenOf ['x', '2', '3'], 23⟩] ++
  [⟨tokenOf ['x', '2', '4'], 24⟩, ⟨tokenOf ['x', '2', '5'], 25⟩, ⟨tokenOf ['x', '2', '6'], 26⟩,
   ⟨tokenOf ['x', '2', '7'], 27⟩, ⟨tokenOf ['x', '2', '8'], 28⟩, ⟨tokenOf ['x', '2', '9'], 29⟩,
   ⟨tokenOf ['x', '3', '0'], 30⟩, ⟨tokenOf ['x', '3', '1'], 31⟩]

/-- The spelling of a mnemonic: upper case, case-sensitive (spec/30_encoding.md R49). -/
def Mnemonic.token : Mnemonic → Token
  | .add => tokenOf ['A', 'D', 'D']
  | .sub => tokenOf ['S', 'U', 'B']
  | .and => tokenOf ['A', 'N', 'D']
  | .or => tokenOf ['O', 'R']
  | .addi => tokenOf ['A', 'D', 'D', 'I']
  | .andi => tokenOf ['A', 'N', 'D', 'I']
  | .srli => tokenOf ['S', 'R', 'L', 'I']
  | .lb => tokenOf ['L', 'B']
  | .lh => tokenOf ['L', 'H']
  | .lw => tokenOf ['L', 'W']
  | .lbu => tokenOf ['L', 'B', 'U']
  | .lhu => tokenOf ['L', 'H', 'U']
  | .sb => tokenOf ['S', 'B']
  | .sh => tokenOf ['S', 'H']
  | .sw => tokenOf ['S', 'W']
  | .beq => tokenOf ['B', 'E', 'Q']
  | .bne => tokenOf ['B', 'N', 'E']
  | .blt => tokenOf ['B', 'L', 'T']
  | .bge => tokenOf ['B', 'G', 'E']
  | .jal => tokenOf ['J', 'A', 'L']

/-- The 17 rows of the dispatch table (R56). `BEQ`, `BNE` and `BLT` have no row (R59). -/
def dispatchRom : List DispatchRow :=
  [⟨Mnemonic.add.token, .registerRegister, 0b0110011, some 0b000, some 0b0000000⟩,
   ⟨Mnemonic.sub.token, .registerRegister, 0b0110011, some 0b000, some 0b0100000⟩,
   ⟨Mnemonic.and.token, .registerRegister, 0b0110011, some 0b111, some 0b0000000⟩,
   ⟨Mnemonic.or.token, .registerRegister, 0b0110011, some 0b110, some 0b0000000⟩] ++
  [⟨Mnemonic.addi.token, .registerImmediate, 0b0010011, some 0b000, none⟩,
   ⟨Mnemonic.andi.token, .registerImmediate, 0b0010011, some 0b111, none⟩,
   ⟨Mnemonic.srli.token, .registerImmediate, 0b0010011, some 0b101, some 0b0000000⟩] ++
  [⟨Mnemonic.lb.token, .load, 0b0000011, some 0b000, none⟩,
   ⟨Mnemonic.lh.token, .load, 0b0000011, some 0b001, none⟩,
   ⟨Mnemonic.lw.token, .load, 0b0000011, some 0b010, none⟩,
   ⟨Mnemonic.lbu.token, .load, 0b0000011, some 0b100, none⟩,
   ⟨Mnemonic.lhu.token, .load, 0b0000011, some 0b101, none⟩] ++
  [⟨Mnemonic.sb.token, .store, 0b0100011, some 0b010, none⟩,
   ⟨Mnemonic.sh.token, .store, 0b0100011, some 0b010, none⟩,
   ⟨Mnemonic.sw.token, .store, 0b0100011, some 0b010, none⟩] ++
  [⟨Mnemonic.bge.token, .branch, 0b1100011, some 0b101, none⟩,
   ⟨Mnemonic.jal.token, .jump, 0b1101111, none, none⟩]

/-- The mnemonics an encoder has constants for: its own set (spec/42_register_register.md R65 to
spec/47_jump.md R98). The Branch encoder "itself supports all four" (R59). -/
def FormatClass.mnemonics : FormatClass → List Mnemonic
  | .registerRegister => [.add, .sub, .and, .or]
  | .registerImmediate => [.addi, .andi, .srli]
  | .load => [.lb, .lh, .lw, .lbu, .lhu]
  | .store => [.sb, .sh, .sw]
  | .branch => [.beq, .bne, .blt, .bge]
  | .jump => [.jal]

/-- "Each mnemonic is statically bound to exactly one variant" (spec/10_state.md R11). -/
def Mnemonic.format : Mnemonic → FormatClass
  | .add => .registerRegister
  | .sub => .registerRegister
  | .and => .registerRegister
  | .or => .registerRegister
  | .addi => .registerImmediate
  | .andi => .registerImmediate
  | .srli => .registerImmediate
  | .lb => .load
  | .lh => .load
  | .lw => .load
  | .lbu => .load
  | .lhu => .load
  | .sb => .store
  | .sh => .store
  | .sw => .store
  | .beq => .branch
  | .bne => .branch
  | .blt => .branch
  | .bge => .branch
  | .jal => .jump

/-- The encode operation of a mnemonic with its operand tokens. -/
def Mnemonic.instr : Mnemonic → List Token → Instr
  | .add, ops => .add ops
  | .sub, ops => .sub ops
  | .and, ops => .and ops
  | .or, ops => .or ops
  | .addi, ops => .addi ops
  | .andi, ops => .andi ops
  | .srli, ops => .srli ops
  | .lb, ops => .lb ops
  | .lh, ops => .lh ops
  | .lw, ops => .lw ops
  | .lbu, ops => .lbu ops
  | .lhu, ops => .lhu ops
  | .sb, ops => .sb ops
  | .sh, ops => .sh ops
  | .sw, ops => .sw ops
  | .beq, ops => .beq ops
  | .bne, ops => .bne ops
  | .blt, ops => .blt ops
  | .bge, ops => .bge ops
  | .jal, ops => .jal ops

/-- The mnemonic of an instruction. -/
def mnemonicOf : Instr → Mnemonic
  | .add _ => .add
  | .sub _ => .sub
  | .and _ => .and
  | .or _ => .or
  | .addi _ => .addi
  | .andi _ => .andi
  | .srli _ => .srli
  | .lb _ => .lb
  | .lh _ => .lh
  | .lw _ => .lw
  | .lbu _ => .lbu
  | .lhu _ => .lhu
  | .sb _ => .sb
  | .sh _ => .sh
  | .sw _ => .sw
  | .beq _ => .beq
  | .bne _ => .bne
  | .blt _ => .blt
  | .bge _ => .bge
  | .jal _ => .jal

/-- The operand tokens of an instruction. -/
def operandsOf : Instr → List Token
  | .add ops => ops
  | .sub ops => ops
  | .and ops => ops
  | .or ops => ops
  | .addi ops => ops
  | .andi ops => ops
  | .srli ops => ops
  | .lb ops => ops
  | .lh ops => ops
  | .lw ops => ops
  | .lbu ops => ops
  | .lhu ops => ops
  | .sb ops => ops
  | .sh ops => ops
  | .sw ops => ops
  | .beq ops => ops
  | .bne ops => ops
  | .blt ops => ops
  | .bge ops => ops
  | .jal ops => ops

end Sys2Proof.Machine
end

