-- ==== Sys2Proof/WellFormed.lean ====
section
/-! DEFINITION. Well-formed instructions: the ones whose operands pass every check the spec makes of them
(spec/60_exceptions.md R105), so that they have a word. -/

namespace Sys2Proof

open Machine

/-- What can be wrong with an instruction's operands. -/
inductive Flaw
  /-- not 3 operands (Jump: 2) -/
  | operandCount
  /-- an operand in a register position is none of the 32 names -/
  | registerName
  /-- the immediate is no decimal integer -/
  | immediateText
  /-- Load, Store or halved Jump immediate outside the range of its field -/
  | immediateRange
  /-- SRLI amount outside 0 to 31 -/
  | shiftRange
  deriving DecidableEq, Repr

/-- Three register names. -/
def flawRR : List Token → Option Flaw
  | [d, a, b] =>
    if (regResolve registerRom d).isSome && (regResolve registerRom a).isSome && (regResolve registerRom b).isSome
    then none else some .registerName
  | _ => some .operandCount

/-- Two register names and an immediate; `range` is the flaw of a value the format does not take. -/
def flawRRI (range : Int → Option Flaw) : List Token → Option Flaw
  | [d, a, t] =>
    if (regResolve registerRom d).isSome && (regResolve registerRom a).isSome then
      match parseImm t with
      | none => some .immediateText
      | some v => range v
    else some .registerName
  | _ => some .operandCount

/-- One register name and an immediate. -/
def flawJump : List Token → Option Flaw
  | [d, t] =>
    if (regResolve registerRom d).isSome then
      match parseImm t with
      | none => some .immediateText
      | some v => if inRange jalHMin jalHMax (half v) then none else some .immediateRange
    else some .registerName
  | _ => some .operandCount

/-- The first flaw of an instruction, in the spec's order of checks, or none. -/
def Instr.flaw (i : Instr) : Option Flaw :=
  match (mnemonicOf i).format with
  | .registerRegister => flawRR (operandsOf i)
  | .registerImmediate =>
    flawRRI (fun v => if mnemonicOf i = .srli ∧ inRange 0 31 v = false then some .shiftRange else none) (operandsOf i)
  | .load => flawRRI (fun v => if inRange lsImmMin lsImmMax v then none else some .immediateRange) (operandsOf i)
  | .store => flawRRI (fun v => if inRange lsImmMin lsImmMax v then none else some .immediateRange) (operandsOf i)
  | .branch => flawRRI (fun _ => none) (operandsOf i)
  | .jump => flawJump (operandsOf i)

/-- An instruction is well formed when no check refuses it. -/
def Instr.wellFormed (i : Instr) : Bool := i.flaw.isNone

end Sys2Proof
end

