-- ==== Sys2Proof/Decode.lean ====
section
/-! DEFINITION. Decoding and encoding.
The block itself decodes REQUESTS: a token list becomes the encode operation its mnemonic selects
(spec/41_dispatcher.md R57). The decoder of 32-bit WORDS and its inverse `encode`, written from
spec/opcode_table.json (match, mask and field places), are the model's own aids: the spec has no disassembler
(spec/00_scope.md R4; logs 4 to 6). -/

namespace Sys2Proof

open Machine

/-! ## Requests -/

/-- What a request asks for. -/
inductive Decoded
  /-- one of the twenty encode operations -/
  | instr (i : Instr)
  /-- the empty token list at the dispatcher (R55) -/
  | empty
  /-- a mnemonic without a dispatch row (R58) -/
  | unknownMnemonic
  /-- tokens driven directly into encoder `f` whose first token is no mnemonic of `f` (R63) -/
  | foreign (f : FormatClass)
  deriving DecidableEq, Repr

/-- The row of the dispatch table for a mnemonic, or none: exact, case-sensitive (R58). -/
def dispatchLookup (table : List DispatchRow) (m : Token) : Option DispatchRow :=
  table.find? fun r => r.mnemonic == m

/-- The tokens as encoder `f` reads them: its operation for `tokens[0]`, or a foreign mnemonic. -/
def decodeAt (f : FormatClass) : List Token → Decoded
  | [] => .foreign f
  | m :: ops =>
    match f.mnemonics.find? fun mn => mn.token == m with
    | some mn => .instr (mn.instr ops)
    | none => .foreign f

/-- Lookup and delegation (R55, R57, R58): the dispatcher examines only whether the list is empty and
`tokens[0]`, and passes the full token list to the encoder the row binds. -/
def decodeDispatch (table : List DispatchRow) : List Token → Decoded
  | [] => .empty
  | m :: ops =>
    match dispatchLookup table m with
    | none => .unknownMnemonic
    | some row => decodeAt row.format (m :: ops)

/-- What a request asks for, given the dispatch table. Total on any token list (R61). -/
def decodeRequest (table : List DispatchRow) (r : Request) : Decoded :=
  match r.entry with
  | .dispatcher => decodeDispatch table r.tokens
  | .encoder f => decodeAt f r.tokens

/-! ## The opcode table -/

/-- The columns "match" and "mask" of spec/opcode_table.json. -/
def opcodePattern : Mnemonic → Word × Word
  | .add => (0x00000033, 0xFE00707F)
  | .sub => (0x40000033, 0xFE00707F)
  | .and => (0x00007033, 0xFE00707F)
  | .or => (0x00006033, 0xFE00707F)
  | .addi => (0x00000013, 0x0000707F)
  | .andi => (0x00007013, 0x0000707F)
  | .srli => (0x00005013, 0xFE00707F)
  | .lb => (0x00000003, 0x0000707F)
  | .lh => (0x00001003, 0x0000707F)
  | .lw => (0x00002003, 0x0000707F)
  | .lbu => (0x00004003, 0x0000707F)
  | .lhu => (0x00005003, 0x0000707F)
  | .sb => (0x00002023, 0x0000707F)
  | .sh => (0x00002023, 0x0000707F)
  | .sw => (0x00002023, 0x0000707F)
  | .beq => (0x00000063, 0x0000707F)
  | .bne => (0x00001063, 0x0000707F)
  | .blt => (0x00004063, 0x0000707F)
  | .bge => (0x00005063, 0x0000707F)
  | .jal => (0x0000006F, 0x0000007F)

/-- The word carries the fixed bits of the mnemonic's row. -/
def matchesRow (w : Word) (mn : Mnemonic) : Bool := w &&& (opcodePattern mn).2 == (opcodePattern mn).1

/-! ## Canonical operand tokens -/

/-- The decimal digits of `n`, no leading zero; `fuel` bounds their number. -/
def decDigits : (fuel : Nat) → Nat → Token
  | 0, _ => []
  | fuel + 1, n =>
    if n < 10 then [BitVec.ofNat 8 (48 + n)]
    else decDigits fuel (n / 10) ++ [BitVec.ofNat 8 (48 + n % 10)]

/-- The decimal numeral of `n`. -/
def natToken (n : Nat) : Token := decDigits (n.log2 + 1) n

/-- The decimal numeral of `v`, with a '-' when it is negative. -/
def immToken (v : Int) : Token := if v < 0 then minusSign :: natToken v.natAbs else natToken v.natAbs

/-- `key(N)` (spec/40_register_table.md R50): `x` and the decimal numeral of the index. -/
def regToken (r : BitVec 5) : Token := 120 :: natToken r.toNat

/-! ## Words to instructions -/

/-- The `rd` field, `word[11:7]` (spec/30_encoding.md R33). -/
def rdField (w : Word) : BitVec 5 := w.extractLsb' 7 5

/-- The `rs1` field, `word[19:15]`. -/
def rs1Field (w : Word) : BitVec 5 := w.extractLsb' 15 5

/-- The `rs2` (or `shamt`) field, `word[24:20]`. -/
def rs2Field (w : Word) : BitVec 5 := w.extractLsb' 20 5

/-- The contiguous 12-bit immediate, `word[31:20]` (R35, R36). -/
def immField (w : Word) : BitVec 12 := w.extractLsb' 20 12

/-- The split 12-bit immediate of a store (R37). -/
def storeField (w : Word) : BitVec 12 := w.extractLsb' 25 7 ++ w.extractLsb' 7 5

/-- The inverse of the Branch permutation: `v = word[31] || word[11] || word[30:25] || word[10:7]` (R45). -/
def branchField (w : Word) : BitVec 12 :=
  w.extractLsb' 31 1 ++ w.extractLsb' 11 1 ++ w.extractLsb' 25 6 ++ w.extractLsb' 7 4

/-- The inverse of the Jump permutation: `v = word[31] || word[19:12] || word[20] || word[30:21]` (R46). -/
def jumpField (w : Word) : BitVec 20 :=
  w.extractLsb' 31 1 ++ w.extractLsb' 12 8 ++ w.extractLsb' 20 1 ++ w.extractLsb' 21 10

/-- The operand tokens of a word of mnemonic `mn`, in the format's operand order (R49), in the canonical
spelling (log 6). A Jump field holds the halved immediate (R44), so the token is twice its value. -/
def wordOperands (mn : Mnemonic) (w : Word) : List Token :=
  match mn.format with
  | .registerRegister => [regToken (rdField w), regToken (rs1Field w), regToken (rs2Field w)]
  | .registerImmediate =>
    match mn with
    | .srli => [regToken (rdField w), regToken (rs1Field w), immToken (rs2Field w).toNat]
    | _ => [regToken (rdField w), regToken (rs1Field w), immToken (immField w).toInt]
  | .load => [regToken (rdField w), regToken (rs1Field w), immToken (immField w).toInt]
  | .store => [regToken (rs2Field w), regToken (rs1Field w), immToken (storeField w).toInt]
  | .branch => [regToken (rs1Field w), regToken (rs2Field w), immToken (branchField w).toInt]
  | .jump => [regToken (rdField w), immToken (2 * (jumpField w).toInt)]

/-- Why a word is no encoded word of the block (spec/30_encoding.md R48). -/
inductive WordReject
  /-- `word[6:0]` is none of the six opcodes (R47) -/
  | unknownOpcode
  /-- the opcode is one of the six and the function-select bits are none of its mnemonics' -/
  | unknownFunction
  deriving DecidableEq, Repr

/-- The mnemonics a word is decoded to. `SB`, `SH` and `SW` have one word (spec/45_store.md R87), so a word cannot
tell them apart: the decoder answers `SW`, "only the word-store variant is distinguished" (DESIGN CHOICE, log 4). -/
def decodableMnemonics : List Mnemonic :=
  [.add, .sub, .and, .or, .addi, .andi, .srli, .lb, .lh, .lw, .lbu, .lhu, .sw, .beq, .bne, .blt, .bge, .jal]

/-- The six top-level opcodes (R47). -/
def opcodes : List (BitVec 7) := [0b0110011, 0b0010011, 0b0000011, 0b0100011, 0b1100011, 0b1101111]

/-- The encode operation, with canonical operands, whose word is `w`; any other word is rejected by name. -/
def decodeWord (w : Word) : Except WordReject Instr :=
  match decodableMnemonics.find? (matchesRow w) with
  | some mn => .ok (mn.instr (wordOperands mn w))
  | none => .error (if opcodes.contains (w.extractLsb' 0 7) then .unknownFunction else .unknownOpcode)

/-- The instruction of a table word (the host's reading aid): bit 0 is the least significant bit of the one
32-bit word; words longer than the block's one instruction length (R33) are refused. -/
def decodeTableWord (nbits w : Nat) : Option Instr :=
  if nbits ≤ 32 then
    match decodeWord (BitVec.ofNat 32 (w % 2 ^ nbits)) with
    | .ok i => some i
    | .error _ => none
  else none

/-! ## Instructions to words -/

/-- A 5-bit register field placed with its least significant bit at word bit `lsb`. -/
def regAt (r : Fin 32) (lsb : Nat) : Word := (u5 r).setWidth 32 <<< lsb

/-- Bits `lo` to `lo + n - 1` of an immediate, placed with the lowest at word bit `lsb`. -/
def immAt (v : Word) (lo n lsb : Nat) : Word := (v.extractLsb' lo n).setWidth 32 <<< lsb

/-- The operand bits of a RegisterRegister word: rs2 at 24:20, rs1 at 19:15, rd at 11:7. -/
def fieldsRR : List Token → Option Word
  | [d, a, b] =>
    match regResolve registerRom d, regResolve registerRom a, regResolve registerRom b with
    | some rd, some rs1, some rs2 => some (regAt rs2 20 ||| regAt rs1 15 ||| regAt rd 7)
    | _, _, _ => none
  | _ => none

/-- The operand bits of a format with two registers and an immediate: the first and second register at `lsb1` and
`lsb2`, the bits of the immediate's value where `place` puts them, or none where `ok` refuses the value. -/
def fieldsRRI (lsb1 lsb2 : Nat) (ok : Int → Bool) (place : Word → Word) : List Token → Option Word
  | [d, a, t] =>
    match regResolve registerRom d, regResolve registerRom a, parseImm t with
    | some r1, some r2, some v =>
      if ok v then some (regAt r1 lsb1 ||| regAt r2 lsb2 ||| place (BitVec.ofInt 32 v)) else none
    | _, _, _ => none
  | _ => none

/-- The operand bits of a Jump word: rd at 11:7, the halved immediate permuted (R46). -/
def fieldsJump : List Token → Option Word
  | [d, t] =>
    match regResolve registerRom d, parseImm t with
    | some rd, some v =>
      if inRange jalHMin jalHMax (half v) then
        let h := BitVec.ofInt 32 (half v)
        some (regAt rd 7 ||| immAt h 19 1 31 ||| immAt h 0 10 21 ||| immAt h 10 1 20 ||| immAt h 11 8 12)
      else none
    | _, _ => none
  | _ => none

/-- The operand bits of an instruction of mnemonic `mn`, from the table's columns "source_fields" and "checks". -/
def operandBits (mn : Mnemonic) (ops : List Token) : Option Word :=
  match mn.format with
  | .registerRegister => fieldsRR ops
  | .registerImmediate =>
    match mn with
    | .srli => fieldsRRI 7 15 (inRange 0 31) (fun v => immAt v 0 5 20) ops
    | _ => fieldsRRI 7 15 (fun _ => true) (fun v => immAt v 0 12 20) ops
  | .load => fieldsRRI 7 15 (inRange lsImmMin lsImmMax) (fun v => immAt v 0 12 20) ops
  | .store => fieldsRRI 20 15 (inRange lsImmMin lsImmMax) (fun v => immAt v 5 7 25 ||| immAt v 0 5 7) ops
  | .branch =>
    fieldsRRI 15 20 (fun _ => true)
      (fun v => immAt v 11 1 31 ||| immAt v 4 6 25 ||| immAt v 10 1 11 ||| immAt v 0 4 7) ops
  | .jump => fieldsJump ops

/-- The word of a well-formed instruction: the row's match value with the operand bits; none where a check of the
row refuses the operands. -/
def encode (i : Instr) : Option Word :=
  (operandBits (mnemonicOf i) (operandsOf i)).map fun bits => (opcodePattern (mnemonicOf i)).1 ||| bits

/-! ## Canonical instructions -/

/-- An immediate token in the spelling the decoder writes, of a value `ok` takes. -/
def canonicalImm (ok : Int → Bool) (t : Token) : Bool :=
  match parseImm t with
  | some v => t == immToken v && ok v
  | none => false

/-- The instructions a word decodes to: well formed, of a decodable mnemonic, the immediate spelled as the
decoder spells it and of a value the field represents (12-bit signed, Jump: even). -/
def canonical (i : Instr) : Bool :=
  i.wellFormed && decodableMnemonics.contains (mnemonicOf i) &&
  match (mnemonicOf i).format, operandsOf i with
  | .registerRegister, _ => true
  | .jump, [_, t] => canonicalImm (fun v => v % 2 == 0) t
  | .jump, _ => false
  | _, [_, _, t] => canonicalImm (inRange lsImmMin lsImmMax) t
  | _, _ => false

/-- The request that asks the block for an instruction: at the dispatcher where the mnemonic is wired, at its
encoder driven directly where it is not (spec/46_branch.md "Reachability"; log 3). -/
def requestOf (i : Instr) : Request :=
  let mn := mnemonicOf i
  let entry := if (dispatchLookup dispatchRom mn.token).isSome then Entry.dispatcher else .encoder mn.format
  ⟨entry, mn.token :: operandsOf i⟩

end Sys2Proof
end

