-- ==== Sys2Proof/Machine/State.lean ====
section
/-! DEFINITION. The state of the encoder core, its two read-only tables, and the lines of its interface. -/

namespace Sys2Proof.Machine

/-- The state of the block: "two pieces of state, both read-only tables" (spec/10_state.md), and no register,
program counter, flag, mode, memory, buffer or queue (R12 to R15, R20). Tokens, register indices, immediates and
results are local values of the encode functions, never fields here (R17). -/
structure Block where
  /-- RegisterTable (R10) -/
  regTable : List RegEntry
  /-- the dispatch table (R11) -/
  dispatchTable : List DispatchRow
  deriving DecidableEq, Repr

/-- What stands on the block's lines at this moment: the inputs the requester drives and the output it reads
(spec/30_encoding.md R32, spec/70_reset_and_hazards.md R117). Lines are no state of the block (R17): the one request
line holds what is presented now and nothing is queued behind it. -/
structure Lines where
  /-- INPUT: the request presented, none where `req_valid` is 0 -/
  request : Option Request
  /-- INPUT: reset is asserted (R117) -/
  resetIn : Bool
  /-- OUTPUT: the result presented, none where no result is (`rsp_valid = 0`) -/
  rsp : Option Result
  deriving DecidableEq, Repr

/-- What a step reads and answers: the block's state and its lines, side by side because the host's step is a function
of one state (DESIGN CHOICE, log 1). -/
structure State extends Block, Lines
  deriving DecidableEq, Repr

/-- Reasons to stop with a fault. There are none: an error is a result value (spec/60_exceptions.md R101, R107), and
no request crashes or hangs the block (spec/41_dispatcher.md R61). Nothing raises a fault. -/
inductive Fault
  deriving DecidableEq, Repr

/-- Reasons to give an instruction no meaning. -/
inductive Refusal
  /-- Raised by an arm of `exec` for an instruction that has no meaning yet; no arm does (safe). -/
  | notModelled (mnemonic : String)
  deriving DecidableEq, Repr

/-- The machine right after reset (R16, R116): both tables hold their constants and no result is presented. That
no request is presented and that reset is released are the model's (DESIGN CHOICE, log 21). -/
def State.reset : State :=
  { regTable := registerRom, dispatchTable := dispatchRom, request := none, resetIn := false, rsp := none }

end Sys2Proof.Machine
end

