-- ==== Sys2Proof/Machine/Ops.lean ====
section
/-! DEFINITION. The shared operations over the state: presenting a result, raising an error, accepting a request,
waiting, reset, and what the requester does to the inputs. -/

namespace Sys2Proof.Machine

/-- The outcome of a step of this machine. -/
abbrev StepOutcome := Host.Outcome State Fault Refusal

/-- `return`: the transaction's result is presented, and nothing else changes: "no encoder mutates shared state"
(spec/10_state.md R15). -/
def State.present (s : State) (r : Result) : State := { s with rsp := some r }

/-- `raise K` (spec/00_scope.md R7), the block's one exceptional event, the same for every encoder and the
dispatcher: the result is `Error(K)`. Nothing is saved, no mode changes, no control goes anywhere, and there is
no return from it (spec/60_exceptions.md R107, R108). -/
def raise (k : ErrorKind) : Result := .error k

/-- The request presented is accepted (a transaction begins, spec/70_reset_and_hazards.md R124): it is presented no
longer, so that it has one result. Its token list is "not retained" (spec/10_state.md R17). -/
def State.accept (s : State) : State := { s with request := none }

/-- A step that serves no request presents no result (one result per request, spec/92_eei_decisions.md D15;
DEDUCED, log 2). -/
def State.idle (s : State) : State := { s with rsp := none }

/-- A step under reset (spec/70_reset_and_hazards.md R117): no result is presented, a request in flight is dropped
without one. The tables are constants and do not change (R116; log 14). -/
def State.holdReset (s : State) : State := { s with request := none, rsp := none }

/-- Both tables are complete: "no transaction ever sees a partly built table" (spec/70_reset_and_hazards.md R118,
spec/92_eei_decisions.md D14; log 15). -/
def State.tablesBuilt (s : State) : Bool := s.regTable == registerRom && s.dispatchTable == dispatchRom

/-- The requester drives the request line: it presents a request, or none. -/
def State.offer (s : State) (o : Option Request) : State := { s with request := o }

/-- The requester drives the reset input. -/
def State.setReset (s : State) (b : Bool) : State := { s with resetIn := b }

end Sys2Proof.Machine
end

