-- ==== Sys2Proof/Machine/Branch.lean ====
section
/-! DEFINITION. The Branch encoder and its four encode operations (spec/46_branch.md R92 to R96). The dispatcher
routes only BGE to it: BEQ, BNE and BLT are the encoder driven directly (R93 to R95, spec/41_dispatcher.md R59). -/

namespace Sys2Proof.Machine

/-- The constant `funct3` of a mnemonic (R93 to R96), or none outside the encoder's set. -/
def branchFunct3 (m : Token) : Option (BitVec 3) :=
  if m = Mnemonic.beq.token then some 0b000
  else if m = Mnemonic.bne.token then some 0b001
  else if m = Mnemonic.blt.token then some 0b100
  else if m = Mnemonic.bge.token then some 0b101
  else none

/-- `EncBranch(tokens)` (R92): no range check, no halving, no parity check. The first operand is rs1, the second
rs2. The support check is the spec's decision D13 (UNVERIFIED, log 12). -/
def encBranch (table : List RegEntry) : List Token → Result
  | [m, a, b, t] =>
    match regResolve table a, regResolve table b with
    | some rs1, some rs2 =>
      match parseImm t with
      | some imm =>
        match branchFunct3 m with
        | some funct3 => .word (branchWord (tc 12 imm) (u5 rs2) (u5 rs1) funct3)
        | none => raise .unsupportedInstruction
      | none => raise .invalidImmediate
    | _, _ => raise .invalidRegister
  | _ => raise .invalidFormat

/-- `BEQ rs1, rs2, imm` (R93). -/
def execBeq (ops : List Token) (s : State) : StepOutcome :=
  .next (s.present (encBranch s.regTable (Mnemonic.beq.token :: ops)))

/-- `BNE rs1, rs2, imm` (R94). -/
def execBne (ops : List Token) (s : State) : StepOutcome :=
  .next (s.present (encBranch s.regTable (Mnemonic.bne.token :: ops)))

/-- `BLT rs1, rs2, imm` (R95). -/
def execBlt (ops : List Token) (s : State) : StepOutcome :=
  .next (s.present (encBranch s.regTable (Mnemonic.blt.token :: ops)))

/-- `BGE rs1, rs2, imm` (R96). -/
def execBge (ops : List Token) (s : State) : StepOutcome :=
  .next (s.present (encBranch s.regTable (Mnemonic.bge.token :: ops)))

end Sys2Proof.Machine
end

