-- ==== Sys2Proof/Machine/Jump.lean ====
section
/-! DEFINITION. The Jump encoder and its encode operation (spec/47_jump.md R98, R99). -/

namespace Sys2Proof.Machine

/-- `EncJump(tokens)` (R98): three tokens, the immediate halved before the range check. `tokens[0]` is not looked
at (spec/41_dispatcher.md R63). -/
def encJump (table : List RegEntry) : List Token → Result
  | [_, d, t] =>
    match regResolve table d with
    | some rd =>
      match parseImm t with
      | some imm =>
        if inRange jalHMin jalHMax (half imm) then .word (jumpWord (tc 20 (half imm)) (u5 rd))
        else raise .immediateOutOfRange
      | none => raise .invalidImmediate
    | none => raise .invalidRegister
  | _ => raise .invalidFormat

/-- `JAL rd, imm` (R99). -/
def execJal (ops : List Token) (s : State) : StepOutcome :=
  .next (s.present (encJump s.regTable (Mnemonic.jal.token :: ops)))

end Sys2Proof.Machine
end

