-- ==== Sys2Proof/Machine/Load.lean ====
section
/-! DEFINITION. The Load encoder and its five encode operations (spec/44_load.md R80 to R85). It builds words and
reads no memory (spec/20_memory.md R20). -/

namespace Sys2Proof.Machine

/-- The constant `funct3` of a mnemonic (R81 to R85), or none outside the encoder's set. -/
def loadFunct3 (m : Token) : Option (BitVec 3) :=
  if m = Mnemonic.lb.token then some 0b000
  else if m = Mnemonic.lh.token then some 0b001
  else if m = Mnemonic.lw.token then some 0b010
  else if m = Mnemonic.lbu.token then some 0b100
  else if m = Mnemonic.lhu.token then some 0b101
  else none

/-- `EncLoad(tokens)` (R80). The support check is the spec's decision D13 (UNVERIFIED, log 12). -/
def encLoad (table : List RegEntry) : List Token → Result
  | [m, d, a, t] =>
    match regResolve table d, regResolve table a with
    | some rd, some rs1 =>
      match parseImm t with
      | some imm =>
        if inRange lsImmMin lsImmMax imm then
          match loadFunct3 m with
          | some funct3 => .word (loadWord (tc 12 imm) (u5 rs1) funct3 (u5 rd))
          | none => raise .unsupportedInstruction
        else raise .immediateOutOfRange
      | none => raise .invalidImmediate
    | _, _ => raise .invalidRegister
  | _ => raise .invalidFormat

/-- `LB rd, rs1, imm` (R81). -/
def execLb (ops : List Token) (s : State) : StepOutcome :=
  .next (s.present (encLoad s.regTable (Mnemonic.lb.token :: ops)))

/-- `LH rd, rs1, imm` (R82). -/
def execLh (ops : List Token) (s : State) : StepOutcome :=
  .next (s.present (encLoad s.regTable (Mnemonic.lh.token :: ops)))

/-- `LW rd, rs1, imm` (R83). -/
def execLw (ops : List Token) (s : State) : StepOutcome :=
  .next (s.present (encLoad s.regTable (Mnemonic.lw.token :: ops)))

/-- `LBU rd, rs1, imm` (R84). -/
def execLbu (ops : List Token) (s : State) : StepOutcome :=
  .next (s.present (encLoad s.regTable (Mnemonic.lbu.token :: ops)))

/-- `LHU rd, rs1, imm` (R85). -/
def execLhu (ops : List Token) (s : State) : StepOutcome :=
  .next (s.present (encLoad s.regTable (Mnemonic.lhu.token :: ops)))

end Sys2Proof.Machine
end

