-- ==== Sys2Proof/Machine/RegisterImmediate.lean ====
section
/-! DEFINITION. The RegisterImmediate encoder and its three encode operations
(spec/43_register_immediate.md R73 to R77). -/

namespace Sys2Proof.Machine

/-- `EncRI(tokens)` (R73). The shift range is SRLI's alone, ADDI and ANDI have no range check (R42), and any
other mnemonic is refused last (R77). -/
def encRI (table : List RegEntry) : List Token → Result
  | [m, d, a, t] =>
    match regResolve table d, regResolve table a with
    | some rd, some rs1 =>
      match parseImm t with
      | some imm =>
        if m = Mnemonic.srli.token then
          if inRange 0 31 imm then .word (shiftWord (u5 imm.toNat) (u5 rs1) (u5 rd))
          else raise .invalidShiftAmount
        else if m = Mnemonic.addi.token then .word (riWord (tc 12 imm) (u5 rs1) 0b000 (u5 rd))
        else if m = Mnemonic.andi.token then .word (riWord (tc 12 imm) (u5 rs1) 0b111 (u5 rd))
        else raise .unsupportedInstruction
      | none => raise .invalidImmediate
    | _, _ => raise .invalidRegister
  | _ => raise .invalidFormat

/-- `ADDI rd, rs1, imm` (R74). -/
def execAddi (ops : List Token) (s : State) : StepOutcome :=
  .next (s.present (encRI s.regTable (Mnemonic.addi.token :: ops)))

/-- `ANDI rd, rs1, imm` (R75). -/
def execAndi (ops : List Token) (s : State) : StepOutcome :=
  .next (s.present (encRI s.regTable (Mnemonic.andi.token :: ops)))

/-- `SRLI rd, rs1, shamt` (R76). -/
def execSrli (ops : List Token) (s : State) : StepOutcome :=
  .next (s.present (encRI s.regTable (Mnemonic.srli.token :: ops)))

end Sys2Proof.Machine
end

