-- ==== Sys2Proof/Machine/RegisterRegister.lean ====
section
/-! DEFINITION. The RegisterRegister encoder and its four encode operations
(spec/42_register_register.md R65 to R69). -/

namespace Sys2Proof.Machine

/-- The constants `(funct7, funct3)` of a mnemonic (R66 to R69), or none outside the encoder's set. -/
def rrConstants (m : Token) : Option (BitVec 7 × BitVec 3) :=
  if m = Mnemonic.add.token then some (0b0000000, 0b000)
  else if m = Mnemonic.sub.token then some (0b0100000, 0b000)
  else if m = Mnemonic.and.token then some (0b0000000, 0b111)
  else if m = Mnemonic.or.token then some (0b0000000, 0b110)
  else none

/-- `EncRR(tokens)` (R65). The support check is the spec's decision D13 (UNVERIFIED, log 12). -/
def encRR (table : List RegEntry) : List Token → Result
  | [m, d, a, b] =>
    match regResolve table d, regResolve table a, regResolve table b with
    | some rd, some rs1, some rs2 =>
      match rrConstants m with
      | some (funct7, funct3) => .word (rrWord funct7 (u5 rs2) (u5 rs1) funct3 (u5 rd))
      | none => raise .unsupportedInstruction
    | _, _, _ => raise .invalidRegister
  | _ => raise .invalidFormat

/-- `ADD rd, rs1, rs2` (R66). -/
def execAdd (ops : List Token) (s : State) : StepOutcome :=
  .next (s.present (encRR s.regTable (Mnemonic.add.token :: ops)))

/-- `SUB rd, rs1, rs2` (R67). -/
def execSub (ops : List Token) (s : State) : StepOutcome :=
  .next (s.present (encRR s.regTable (Mnemonic.sub.token :: ops)))

/-- `AND rd, rs1, rs2` (R68). -/
def execAnd (ops : List Token) (s : State) : StepOutcome :=
  .next (s.present (encRR s.regTable (Mnemonic.and.token :: ops)))

/-- `OR rd, rs1, rs2` (R69). -/
def execOr (ops : List Token) (s : State) : StepOutcome :=
  .next (s.present (encRR s.regTable (Mnemonic.or.token :: ops)))

end Sys2Proof.Machine
end

