-- ==== Sys2Proof/Machine/Store.lean ====
section
/-! DEFINITION. The Store encoder and its three encode operations (spec/45_store.md R87 to R90). It builds words and
writes no memory (spec/20_memory.md R20). -/

namespace Sys2Proof.Machine

/-- `EncStore(tokens)` (R87): the first operand is the value register rs2, the second the base register rs1. The
function code is 010 whatever the mnemonic: `tokens[0]` is not looked at. -/
def encStore (table : List RegEntry) : List Token → Result
  | [_, b, a, t] =>
    match regResolve table b, regResolve table a with
    | some rs2, some rs1 =>
      match parseImm t with
      | some imm =>
        if inRange lsImmMin lsImmMax imm then .word (storeWord (tc 12 imm) (u5 rs2) (u5 rs1))
        else raise .immediateOutOfRange
      | none => raise .invalidImmediate
    | _, _ => raise .invalidRegister
  | _ => raise .invalidFormat

/-- `SB rs2, rs1, imm` (R88). -/
def execSb (ops : List Token) (s : State) : StepOutcome :=
  .next (s.present (encStore s.regTable (Mnemonic.sb.token :: ops)))

/-- `SH rs2, rs1, imm` (R89). -/
def execSh (ops : List Token) (s : State) : StepOutcome :=
  .next (s.present (encStore s.regTable (Mnemonic.sh.token :: ops)))

/-- `SW rs2, rs1, imm` (R90). -/
def execSw (ops : List Token) (s : State) : StepOutcome :=
  .next (s.present (encStore s.regTable (Mnemonic.sw.token :: ops)))

end Sys2Proof.Machine
end

