-- ==== Sys2Proof/Machine/Dispatch.lean ====
section
/-! DEFINITION. The dispatch of an instruction to its meaning, one arm per constructor. -/

namespace Sys2Proof.Machine

/-- The meaning of an instruction: the transaction's result is presented. -/
def exec (i : Instr) (s : State) : Host.Outcome State Fault Refusal :=
  match i with
  | .add ops => Sys2Proof.Machine.execAdd ops s
  | .sub ops => Sys2Proof.Machine.execSub ops s
  | .and ops => Sys2Proof.Machine.execAnd ops s
  | .or ops => Sys2Proof.Machine.execOr ops s
  | .addi ops => Sys2Proof.Machine.execAddi ops s
  | .andi ops => Sys2Proof.Machine.execAndi ops s
  | .srli ops => Sys2Proof.Machine.execSrli ops s
  | .lb ops => Sys2Proof.Machine.execLb ops s
  | .lh ops => Sys2Proof.Machine.execLh ops s
  | .lw ops => Sys2Proof.Machine.execLw ops s
  | .lbu ops => Sys2Proof.Machine.execLbu ops s
  | .lhu ops => Sys2Proof.Machine.execLhu ops s
  | .sb ops => Sys2Proof.Machine.execSb ops s
  | .sh ops => Sys2Proof.Machine.execSh ops s
  | .sw ops => Sys2Proof.Machine.execSw ops s
  | .beq ops => Sys2Proof.Machine.execBeq ops s
  | .bne ops => Sys2Proof.Machine.execBne ops s
  | .blt ops => Sys2Proof.Machine.execBlt ops s
  | .bge ops => Sys2Proof.Machine.execBge ops s
  | .jal ops => Sys2Proof.Machine.execJal ops s

end Sys2Proof.Machine
end

