-- ==== Sys2Proof/Machine/Transaction.lean ====
section
/-! DEFINITION. One encode transaction: a request decoded and its operation run, with the cases that are no
instruction. -/

namespace Sys2Proof.Machine

/-- The encoder of a format class (spec/41_dispatcher.md R63: a function of the full token list and the
RegisterTable). -/
def runEncoder (f : FormatClass) (table : List RegEntry) (tokens : List Token) : Result :=
  match f with
  | .registerRegister => encRR table tokens
  | .registerImmediate => encRI table tokens
  | .load => encLoad table tokens
  | .store => encStore table tokens
  | .branch => encBranch table tokens
  | .jump => encJump table tokens

/-- The transaction of an accepted request: its encode operation, `Empty` (R55), `UnknownInstruction` (R58), or
what an encoder driven directly answers to a mnemonic outside its set (R63). -/
def serve (r : Request) (s : State) : StepOutcome :=
  match decodeRequest s.dispatchTable r with
  | .instr i => exec i s
  | .empty => .next (s.present .empty)
  | .unknownMnemonic => .next (s.present (raise .unknownInstruction))
  | .foreign f => .next (s.present (runEncoder f s.regTable r.tokens))

/-- A step out of reset: the request presented is accepted and served. It is not accepted from a partly built
table (spec/93_implementation_defined.md U10; log 15), and without a request the block is idle. -/
def transact (s : State) : StepOutcome :=
  if s.tablesBuilt then
    match s.request with
    | none => .next s.idle
    | some r => serve r s.accept
  else .next s.idle

/-- The request that asks for a decoded table word is presented, reset released and both tables at their
constants (the only thing they ever hold, spec/10_state.md R10, R11), so that the next step runs it (log 5). A
word that decodes to nothing changes nothing. -/
def State.presentWord (s : State) (nbits w : Nat) : State :=
  match decodeTableWord nbits w with
  | some i =>
    { s with
      regTable := registerRom, dispatchTable := dispatchRom, request := some (requestOf i), resetIn := false }
  | none => s

end Sys2Proof.Machine
end

