-- ==== Sys2Proof/Machine/Step.lean ====
section
/-! DEFINITION. One step of the block: one encode transaction (spec/70_reset_and_hazards.md R124), or a step under
reset (R117). -/

namespace Sys2Proof.Machine

/-- One step. -/
def step (s : State) : Host.Outcome State Fault Refusal :=
  if s.resetIn then .next s.holdReset else transact s

/-- The state whose next step runs exactly the instruction of the table word `w`. -/
def State.withFetchWord (s : State) (nbits w : Nat) : State := s.presentWord nbits w

end Sys2Proof.Machine
end

