-- ==== Sys2Proof/Config.lean ====
section
/-! DEFINITION. What a realisation fixes and the spec leaves OPEN (spec/00_scope.md R5,
spec/92_eei_decisions.md D3): the bounds of the request port, and the free values of its lanes. Nothing of
the transaction level depends on them (R5: "no rule's result depends on it for inputs within its bound").
`LATENCY` is timing and is left out of the model (log 2). -/

namespace Sys2Proof

/-- How far `MAX_TOKENS` lies above its least value (free; log 13). -/
opaque Config.extraTokens : Nat

/-- How far `MAX_TOKEN_CHARS` lies above its least value (free; log 13). -/
opaque Config.extraTokenChars : Nat

/-- `MAX_TOKENS`: "OPEN, at least 5" (R5). -/
def Config.maxTokens : Nat := Config.extraTokens + 5

/-- `MAX_TOKEN_CHARS`: "OPEN, at least 8" (R5). -/
def Config.maxTokenChars : Nat := Config.extraTokenChars + 8

/-- What lane `lane` of the request port carries at character position `pos` past its token's length: no
rule says (free; log 13). -/
opaque Config.idleChar : (lane pos : Nat) → Char8

/-- What `req_tok_len[lane]` carries on a lane past the request's tokens (`lane >= req_ntok`): no rule says (free;
log 13). -/
opaque Config.idleLength : (lane : Nat) → Nat

end Sys2Proof
end

