-- ==== Sys2Proof/Machine/Flags.lean ====
section
/-! DEFINITION. What the response reports beside the word. The block has NO status flag, condition code or sticky
error bit (spec/10_state.md R15; every instruction rule: "Flags: none"), so there is no flag computation: the
kind of a result and the code of an error are lines of the response port, computed from the one result. -/

namespace Sys2Proof.Machine

/-- `rsp_kind` (spec/30_encoding.md R32): 0 Empty, 1 Word, 2 Error; 3 is never driven. -/
def Result.kindCode : Result → BitVec 2
  | .empty => 0
  | .word _ => 1
  | .error _ => 2

/-- The codes of the error kinds (spec/60_exceptions.md R102). -/
def ErrorKind.code : ErrorKind → BitVec 3
  | .invalidFormat => 1
  | .invalidRegister => 2
  | .invalidImmediate => 3
  | .immediateOutOfRange => 4
  | .invalidShiftAmount => 5
  | .unsupportedInstruction => 6
  | .unknownInstruction => 7

/-- `rsp_err`: the error code when the result is an error, 0 otherwise (R32, R102). -/
def Result.errCode : Result → BitVec 3
  | .error k => k.code
  | .empty => 0
  | .word _ => 0

/-- The word a result carries; `Empty` and `Error` carry none (spec/92_eei_decisions.md D5). -/
def Result.word? : Result → Option Word
  | .word w => some w
  | .empty => none
  | .error _ => none

end Sys2Proof.Machine
end

