-- ==== Sys2Proof/Machine/Ports.lean ====
section
/-! DEFINITION. The port wrapping of the block (spec/30_encoding.md R32), which "carries no behaviour of its own"
(spec/92_eei_decisions.md D1): the request port as a token list, the result as response lines and as RVA's
32-character string. -/

namespace Sys2Proof.Machine

/-! ## The response -/

/-- The response lines while `rsp_valid` is 1. `rsp_word` is absent where it has no meaning (R32, D5). -/
structure RspPort where
  kind : BitVec 2
  word : Option Word
  err : BitVec 3
  deriving DecidableEq, Repr

/-- The response lines of a result. -/
def RspPort.ofResult (r : Result) : RspPort := ⟨r.kindCode, r.word?, r.errCode⟩

/-- The response port: none where `rsp_valid` is 0 (no result is presented). -/
def State.rspPort (s : State) : Option RspPort := s.rsp.map RspPort.ofResult

/-- One bit as the character '0' or '1'. -/
def bitChar (b : Bool) : Char8 := if b then 49 else 48

/-- The encoded word string of RVA (spec/00_scope.md R6): 32 characters, the most significant bit first. -/
def wordString (w : Word) : Token := (List.range 32).map fun k => bitChar (w.getLsbD (31 - k))

/-! ## The request -/

/-- The request lines: `req_valid`, `req_ntok`, and per lane `req_tok_len[i]` and `req_tok[i]`, the latter
`MAX_TOKEN_CHARS` characters, first character first. -/
structure ReqPort where
  valid : Bool
  ntok : Nat
  tokLen : List Nat
  tok : List Token
  deriving DecidableEq, Repr

/-- The token list the lines carry: the first `req_ntok` lanes, of each the first `req_tok_len[i]` characters. -/
def ReqPort.tokens (p : ReqPort) : List Token :=
  (List.zipWith (fun n t => t.take n) p.tokLen p.tok).take p.ntok

/-- A lane: the token's characters, then characters no rule names (free; log 13). -/
def padToken (lane : Nat) (t : Token) : Token :=
  t ++ (List.range (Config.maxTokenChars - t.length)).map fun k => Config.idleChar lane (t.length + k)

/-- `n` lanes from lane `lane` on, carrying the tokens `ts` in order; the lanes past them carry free characters only
(log 13). -/
def padLanes (lane : Nat) : (n : Nat) → List Token → List Token
  | 0, _ => []
  | n + 1, ts => padToken lane (ts.headD []) :: padLanes (lane + 1) n ts.tail

/-- The lengths on `n` lanes from lane `lane` on that carry the tokens `ts` in order. The spec does not say what
`req_tok_len[i]` carries on a lane past the tokens: a free value (log 13). -/
def laneLengths (lane : Nat) : (n : Nat) → List Token → List Nat
  | 0, _ => []
  | n + 1, [] => Config.idleLength lane :: laneLengths (lane + 1) n []
  | n + 1, t :: ts => t.length :: laneLengths (lane + 1) n ts

/-- A request within the realisation's bounds. -/
def withinBounds (ts : List Token) : Bool :=
  decide (ts.length ≤ Config.maxTokens) && ts.all fun t => decide (t.length ≤ Config.maxTokenChars)

/-- The lines that present the token list `ts`; a request beyond the bounds cannot be presented
(spec/93_implementation_defined.md U8; log 13). -/
def ReqPort.drive (ts : List Token) : Option ReqPort :=
  if withinBounds ts then
    some ⟨true, ts.length, laneLengths 0 Config.maxTokens ts, padLanes 0 Config.maxTokens ts⟩
  else none

/-- Lines that some request within the realisation's bounds could drive: `MAX_TOKENS` lanes of `MAX_TOKEN_CHARS`
characters, `req_ntok` and the lengths of the request's own tokens within the bounds. -/
def ReqPort.inDomain (p : ReqPort) : Bool :=
  p.tokLen.length == Config.maxTokens && p.tok.length == Config.maxTokens &&
  p.tok.all (fun t => t.length == Config.maxTokenChars) && decide (p.ntok ≤ Config.maxTokens) &&
  (p.tokLen.take p.ntok).all fun n => decide (n ≤ Config.maxTokenChars)

/-- The lines are sampled: a valid request is presented to the dispatcher, the one external entry point
(spec/41_dispatcher.md), and none where `req_valid` is 0. Lines of a valid request that no request within the bounds
drives are "outside the realisation's domain" (spec/93_implementation_defined.md U8: refuse): they are given no
meaning (none; DESIGN CHOICE, log 13). -/
def State.sample (s : State) (p : ReqPort) : Option State :=
  if p.valid then
    if p.inDomain then some (s.offer (some ⟨.dispatcher, p.tokens⟩)) else none
  else some (s.offer none)

end Sys2Proof.Machine
end

