-- ==== Sys2Proof/Safety.lean ====
section
/-! DEFINITION. The terms the statements use: the state invariant, the reading of one request against the constant
tables, the results a session presents, and the shape of what each format's operations do. -/

namespace Sys2Proof.Machine

/-! ## States and requests -/

/-- Both tables hold their constants: the only contents they ever have (spec/10_state.md R10, R11, R16). -/
def TablesConstant (s : State) : Prop := s.regTable = registerRom ∧ s.dispatchTable = dispatchRom

/-- A word of the block: one of the six formats with a mnemonic's function-select bits (spec/30_encoding.md R47,
R48). -/
def IsEncodedWord (w : Word) : Prop := ∃ mn : Mnemonic, matchesRow w mn = true

/-- The invariant: the tables are constant, and a word presented is an encoded word. -/
def Inv (s : State) : Prop := TablesConstant s ∧ ∀ w, s.rsp = some (.word w) → IsEncodedWord w

/-- The block is ready to accept a request: out of reset, with complete tables. -/
def Ready (s : State) : Prop := s.resetIn = false ∧ TablesConstant s

/-- The mnemonics with a dispatch row (spec/41_dispatcher.md R56). -/
def wiredMnemonics : List Mnemonic :=
  [.add, .sub, .and, .or, .addi, .andi, .srli, .lb, .lh, .lw, .lbu, .lhu, .sb, .sh, .sw, .bge, .jal]

/-- `encode(tokens)` as the spec's pseudocode writes it (spec/41_dispatcher.md R57): a case distinction over
`tokens[0]`, not a table search. -/
def encodeTokens (tokens : List Token) : Result :=
  match tokens with
  | [] => .empty
  | m :: _ =>
    if m ∈ [Mnemonic.add.token, Mnemonic.sub.token, Mnemonic.and.token, Mnemonic.or.token] then
      encRR registerRom tokens
    else if m ∈ [Mnemonic.addi.token, Mnemonic.andi.token, Mnemonic.srli.token] then encRI registerRom tokens
    else if m ∈ [Mnemonic.lb.token, Mnemonic.lh.token, Mnemonic.lw.token, Mnemonic.lbu.token, Mnemonic.lhu.token] then
      encLoad registerRom tokens
    else if m ∈ [Mnemonic.sb.token, Mnemonic.sh.token, Mnemonic.sw.token] then encStore registerRom tokens
    else if m = Mnemonic.bge.token then encBranch registerRom tokens
    else if m = Mnemonic.jal.token then encJump registerRom tokens
    else .error .unknownInstruction

/-- The result the spec gives a request: `encode` at the dispatcher, the encoder's own function where it is
driven directly (R57, R63). -/
def resultOf (r : Request) : Result :=
  match r.entry with
  | .dispatcher => encodeTokens r.tokens
  | .encoder f => runEncoder f registerRom r.tokens

/-- What the result output holds after each step of a session: before each step the requester drives the request
line, with a request or with none (it waits), and the list ends where the machine stops. -/
def session : List (Option Request) → State → List (Option Result)
  | [], _ => []
  | o :: os, s =>
    match step (s.offer o) with
    | .next t => t.rsp :: session os t
    | .fault _ => []
    | .refused _ => []

/-- The next step answers the request presented with result `r`: the request is accepted, `r` is presented, every
other field is as before. -/
def StepAnswers (s : State) (r : Result) : Prop :=
  step s = .next { s with request := none, rsp := some r }

/-! ## Instructions -/

/-- `exec` completes with a next state in which result `r` is presented and every other field is as before. -/
def Answers (i : Instr) (s : State) (r : Result) : Prop := exec i s = .next { s with rsp := some r }

/-- The error a flaw raises (spec/60_exceptions.md R101). -/
def flawKind : Flaw → ErrorKind
  | .operandCount => .invalidFormat
  | .registerName => .invalidRegister
  | .immediateText => .invalidImmediate
  | .immediateRange => .immediateOutOfRange
  | .shiftRange => .invalidShiftAmount

/-- A RegisterRegister operation: errors in the order of detection, then the word
`funct7 || u5(rs2) || u5(rs1) || funct3 || u5(rd) || 0110011` with its match and mask. -/
def RegisterRegisterShape (i : List Token → Instr) (funct7 : BitVec 7) (funct3 : BitVec 3) (pattern : Word) : Prop :=
  ∀ s : State,
    (∀ ops, ops.length ≠ 3 → Answers (i ops) s (.error .invalidFormat)) ∧
    (∀ d a b, regResolve s.regTable d = none ∨ regResolve s.regTable a = none ∨ regResolve s.regTable b = none →
      Answers (i [d, a, b]) s (.error .invalidRegister)) ∧
    (∀ d a b rd rs1 rs2, regResolve s.regTable d = some rd → regResolve s.regTable a = some rs1 →
      regResolve s.regTable b = some rs2 →
      ∃ w : Word, Answers (i [d, a, b]) s (.word w) ∧
        w = funct7 ++ u5 rs2 ++ u5 rs1 ++ funct3 ++ u5 rd ++ 0b0110011#7 ∧ w &&& 0xFE00707F#32 = pattern)

/-- An operation with operands register, register, immediate: the errors in the order of detection up to the parse
of the immediate, then `done r1 r2 v` for the resolved registers and the parsed value. -/
def TwoRegisterImmediateShape (i : List Token → Instr) (s : State) (done : Fin 32 → Fin 32 → Int → Result) : Prop :=
  (∀ ops, ops.length ≠ 3 → Answers (i ops) s (.error .invalidFormat)) ∧
  (∀ d a t, regResolve s.regTable d = none ∨ regResolve s.regTable a = none →
    Answers (i [d, a, t]) s (.error .invalidRegister)) ∧
  (∀ d a t r1 r2, regResolve s.regTable d = some r1 → regResolve s.regTable a = some r2 → parseImm t = none →
    Answers (i [d, a, t]) s (.error .invalidImmediate)) ∧
  (∀ d a t r1 r2 v, regResolve s.regTable d = some r1 → regResolve s.regTable a = some r2 → parseImm t = some v →
    Answers (i [d, a, t]) s (done r1 r2 v))

/-- ADDI and ANDI: no range check, the field is `v mod 4096`. -/
def AddiShape (i : List Token → Instr) (funct3 : BitVec 3) (pattern : Word) : Prop :=
  (∀ s, TwoRegisterImmediateShape i s fun rd rs1 v =>
    .word (BitVec.ofNat 12 (v % 4096).toNat ++ u5 rs1 ++ funct3 ++ u5 rd ++ 0b0010011#7)) ∧
  ∀ (imm12 : BitVec 12) (rs1 rd : Fin 32),
    (imm12 ++ u5 rs1 ++ funct3 ++ u5 rd ++ 0b0010011#7 : Word) &&& 0x0000707F#32 = pattern

/-- A Load: the word in range, `ImmediateOutOfRange` outside -2048 to 2047. -/
def LoadShape (i : List Token → Instr) (funct3 : BitVec 3) (pattern : Word) : Prop :=
  (∀ s, TwoRegisterImmediateShape i s fun rd rs1 v =>
    if -2048 ≤ v ∧ v ≤ 2047 then .word (BitVec.ofInt 12 v ++ u5 rs1 ++ funct3 ++ u5 rd ++ 0b0000011#7)
    else .error .immediateOutOfRange) ∧
  ∀ (imm12 : BitVec 12) (rs1 rd : Fin 32),
    (imm12 ++ u5 rs1 ++ funct3 ++ u5 rd ++ 0b0000011#7 : Word) &&& 0x0000707F#32 = pattern

/-- A Store: the first operand is rs2, the second rs1, the immediate is split. -/
def StoreShape (i : List Token → Instr) : Prop :=
  (∀ s, TwoRegisterImmediateShape i s fun rs2 rs1 v =>
    if -2048 ≤ v ∧ v ≤ 2047 then
      .word ((BitVec.ofInt 12 v).extractLsb' 5 7 ++ u5 rs2 ++ u5 rs1 ++ 0b010#3 ++ (BitVec.ofInt 12 v).extractLsb' 0 5 ++
        0b0100011#7)
    else .error .immediateOutOfRange) ∧
  ∀ (hi : BitVec 7) (lo : BitVec 5) (rs2 rs1 : Fin 32),
    (hi ++ u5 rs2 ++ u5 rs1 ++ 0b010#3 ++ lo ++ 0b0100011#7 : Word) &&& 0x0000707F#32 = 0x00002023#32

/-- A Branch: the first operand is rs1, the second rs2, no range check, `v = imm mod 4096` permuted. -/
def BranchShape (i : List Token → Instr) (funct3 : BitVec 3) (pattern : Word) : Prop :=
  (∀ s, TwoRegisterImmediateShape i s fun rs1 rs2 imm =>
    let v := BitVec.ofNat 12 (imm % 4096).toNat
    .word (v.extractLsb' 11 1 ++ v.extractLsb' 4 6 ++ u5 rs2 ++ u5 rs1 ++ funct3 ++ v.extractLsb' 10 1 ++
      v.extractLsb' 0 4 ++ 0b1100011#7)) ∧
  ∀ (v : BitVec 12) (rs1 rs2 : Fin 32),
    (v.extractLsb' 11 1 ++ v.extractLsb' 4 6 ++ u5 rs2 ++ u5 rs1 ++ funct3 ++ v.extractLsb' 10 1 ++
      v.extractLsb' 0 4 ++ 0b1100011#7 : Word) &&& 0x0000707F#32 = pattern

end Sys2Proof.Machine
end

