-- ==== Sys2Proof/Certificates/Slice0/Obligations.lean ====
section
/-! DEFINITION. The statements about the encoder core, from the numbered rules of spec/. Nothing is proved here. -/

open Sys2Proof Sys2Proof.Machine

/-! ## State, tables, reset -/

/-- R10, R16, R56: at reset the RegisterTable has its 32 entries, entry N with key `"x"` and the decimal numeral of N
and value N, the dispatch table its 17 rows, and no result is presented (the last is spec decision D23). -/
def Obligations.ResetHoldsConstantTables : Prop :=
  State.reset.regTable.length = 32 ∧
  (∀ n : Fin 32, State.reset.regTable[n.val]? =
    some ⟨if n.val < 10 then [0x78, BitVec.ofNat 8 (48 + n.val)]
      else [0x78, BitVec.ofNat 8 (48 + n.val / 10), BitVec.ofNat 8 (48 + n.val % 10)], n⟩) ∧
  State.reset.dispatchTable.map DispatchRow.mnemonic = wiredMnemonics.map Mnemonic.token ∧
  State.reset.dispatchTable.map DispatchRow.format = wiredMnemonics.map Mnemonic.format ∧
  (∀ row ∈ State.reset.dispatchTable, row.opcode =
    match row.format with
    | .registerRegister => 0b0110011
    | .registerImmediate => 0b0010011
    | .load => 0b0000011
    | .store => 0b0100011
    | .branch => 0b1100011
    | .jump => 0b1101111) ∧
  State.reset.dispatchTable.map DispatchRow.funct3 =
    [some 0b000, some 0b000, some 0b111, some 0b110, some 0b000, some 0b111, some 0b101, some 0b000, some 0b001,
      some 0b010, some 0b100, some 0b101, some 0b010, some 0b010, some 0b010, some 0b101, none] ∧
  State.reset.dispatchTable.map DispatchRow.funct7 =
    [some 0b0000000, some 0b0100000, some 0b0000000, some 0b0000000, none, none, some 0b0000000, none, none, none, none,
      none, none, none, none, none, none] ∧
  State.reset.rsp = none

/-- The invariant holds at reset. -/
def Obligations.ResetMeetsInvariant : Prop := Inv State.reset

/-- Every step keeps the invariant: the tables stay the constants, and a word presented is one of the formats of
R34 to R39 with a mnemonic's function-select bits (R47, R48), whatever the request and wherever it enters. -/
def Obligations.EveryStepKeepsInvariant : Prop :=
  ∀ s t : State, Inv s → step s = .next t → Inv t

/-- No step writes a table (R10 "No rule of this spec writes it", R11), in any state. -/
def Obligations.TablesAreNeverWritten : Prop :=
  ∀ s t : State, step s = .next t → t.regTable = s.regTable ∧ t.dispatchTable = s.dispatchTable

/-- The frame of every encode operation (R15): where it answers a next state, only the result output may change. -/
def Obligations.EncodeOperationsChangeOnlyTheResult : Prop :=
  ∀ (i : Instr) (s t : State), exec i s = .next t →
    t.regTable = s.regTable ∧ t.dispatchTable = s.dispatchTable ∧ t.request = s.request ∧ t.resetIn = s.resetIn

/-- R50: `RegResolve` is exact. A token resolves to N exactly when it is `"x"` followed by the decimal numeral of N
with no leading zero. -/
def Obligations.RegResolveIsExact : Prop :=
  ∀ s : State, TablesConstant s → ∀ (t : Token) (n : Fin 32),
    regResolve s.regTable t = some n ↔
      t = if n.val < 10 then [0x78, BitVec.ofNat 8 (48 + n.val)]
        else [0x78, BitVec.ofNat 8 (48 + n.val / 10), BitVec.ofNat 8 (48 + n.val % 10)]

/-- R53: every name resolves to its index and the field is the index in plain binary; distinct valid names give
distinct fields. -/
def Obligations.RegisterFieldsArePlainBinary : Prop :=
  ∀ s : State, TablesConstant s →
    (∀ n : Fin 32,
      regResolve s.regTable (if n.val < 10 then [0x78, BitVec.ofNat 8 (48 + n.val)]
        else [0x78, BitVec.ofNat 8 (48 + n.val / 10), BitVec.ofNat 8 (48 + n.val % 10)]) = some n ∧
      (u5 n).toNat = n.val) ∧
    (∀ (a b : Token) (i j : Fin 32), regResolve s.regTable a = some i → regResolve s.regTable b = some j → a ≠ b →
      u5 i ≠ u5 j)

/-- R117 (spec decision D23): under reset no result is presented and the request in flight is dropped; once reset is
released the block is as `State.reset`. The request presented is the model's reading of "in flight" (log 14). -/
def Obligations.ResetDropsRequestsInFlight : Prop :=
  (∀ s : State, s.resetIn = true → step s = .next { s with request := none, rsp := none }) ∧
  (∀ s : State, s.resetIn = true → TablesConstant s → ∃ t, step s = .next t ∧ t.setReset false = State.reset)

/-- R118, U10: a request that meets a RegisterTable other than the complete one is not accepted: it stays on the
request line and no result is presented (the model's waiting step: log 15). -/
def Obligations.PartlyBuiltTableIsNotRead : Prop :=
  ∀ s : State, s.resetIn = false → s.regTable ≠ registerRom → step s = .next { s with rsp := none }

/-- A ready block without a request presents no result and changes nothing else (log 2, D15, D23). -/
def Obligations.NoRequestNoResult : Prop :=
  ∀ s : State, Ready s → s.request = none → step s = .next { s with rsp := none }

/-! ## Transactions -/

/-- A step of a ready block whose request decodes to `i` is `exec i` after the request is accepted (one transaction per step is the model's choice: log 2). -/
def Obligations.StepRunsDecodedInstruction : Prop :=
  ∀ (s : State) (r : Request) (i : Instr), Ready s → s.request = some r →
    decodeRequest s.dispatchTable r = .instr i → step s = exec i { s with request := none }

/-- R55: the empty token list gives `Empty`; `Empty` is given for no other list, and a list whose first token is the
empty string is an unknown mnemonic. -/
def Obligations.EmptyRequestGivesEmpty : Prop :=
  ∀ (s : State) (tokens : List Token), Ready s →
    s.request = some ⟨.dispatcher, tokens⟩ →
    (tokens = [] → StepAnswers s .empty) ∧
    (tokens ≠ [] → ¬ StepAnswers s .empty) ∧
    (∀ ops, tokens = [] :: ops → StepAnswers s (.error .unknownInstruction))

/-- R57: the step of a ready block on a dispatcher request presents exactly `encode(tokens)` of the spec's
pseudocode, accepts the request and changes nothing else. -/
def Obligations.DispatcherTransactionIsEncode : Prop :=
  ∀ (s : State) (tokens : List Token), Ready s →
    s.request = some ⟨.dispatcher, tokens⟩ → StepAnswers s (encodeTokens tokens)

/-- R56: each of the 17 wired mnemonics at the dispatcher runs its encode operation, whatever its operands; each of
the twenty runs it where its own encoder is driven directly (log 3). -/
def Obligations.MnemonicsRunTheirOperation : Prop :=
  ∀ (s : State) (mn : Mnemonic) (ops : List Token), Ready s →
    (mn ∈ wiredMnemonics → s.request = some ⟨.dispatcher, mn.token :: ops⟩ →
      step s = exec (mn.instr ops) { s with request := none }) ∧
    (s.request = some ⟨.encoder mn.format, mn.token :: ops⟩ →
      step s = exec (mn.instr ops) { s with request := none })

/-- R11, R56: the constant fields of a dispatch row are the fields of every word its encoder builds for the row's
mnemonic. -/
def Obligations.DispatchRowsAgreeWithWords : Prop :=
  ∀ s : State, TablesConstant s → ∀ row ∈ s.dispatchTable, ∀ (ops : List Token) (w : Word),
    runEncoder row.format s.regTable (row.mnemonic :: ops) = .word w →
    w.extractLsb' 0 7 = row.opcode ∧ (∀ f, row.funct3 = some f → w.extractLsb' 12 3 = f) ∧
      (∀ f, row.funct7 = some f → w.extractLsb' 25 7 = f)

/-- R58: a first token that is none of the 17 wired spellings gives `UnknownInstruction`, whatever follows it. -/
def Obligations.UnknownMnemonicIsRefusedFirst : Prop :=
  ∀ (s : State) (m : Token) (ops : List Token), Ready s →
    s.request = some ⟨.dispatcher, m :: ops⟩ →
    m ∉ [tokenOf ['A', 'D', 'D'], tokenOf ['S', 'U', 'B'], tokenOf ['A', 'N', 'D'], tokenOf ['O', 'R'],
      tokenOf ['A', 'D', 'D', 'I'], tokenOf ['A', 'N', 'D', 'I'], tokenOf ['S', 'R', 'L', 'I'], tokenOf ['L', 'B'],
      tokenOf ['L', 'H'], tokenOf ['L', 'W'], tokenOf ['L', 'B', 'U'], tokenOf ['L', 'H', 'U'], tokenOf ['S', 'B'],
      tokenOf ['S', 'H'], tokenOf ['S', 'W'], tokenOf ['B', 'G', 'E'], tokenOf ['J', 'A', 'L']] →
    StepAnswers s (.error .unknownInstruction)

/-- R59 (spec decision D12): BEQ, BNE and BLT at the dispatcher give `UnknownInstruction`; the Branch encoder driven
directly runs them (the second entry is the model's reading of "driven directly": log 3). -/
def Obligations.UnwiredBranchMnemonics : Prop :=
  ∀ (s : State) (ops : List Token), Ready s →
    ∀ m ∈ [tokenOf ['B', 'E', 'Q'], tokenOf ['B', 'N', 'E'], tokenOf ['B', 'L', 'T']],
      (s.request = some ⟨.dispatcher, m :: ops⟩ → StepAnswers s (.error .unknownInstruction)) ∧
      (s.request = some ⟨.encoder .branch, m :: ops⟩ → StepAnswers s (encBranch s.regTable (m :: ops)))

/-- R61: every request is answered by one result in one step, and no state makes a step stop. -/
def Obligations.EveryRequestIsAnswered : Prop :=
  (∀ (s : State) (r : Request), Ready s → s.request = some r →
    ∃ res : Result, StepAnswers s res) ∧
  (∀ s : State, ∃ t, step s = .next t)

/-- R62: `UnsupportedInstruction` is not reachable through the dispatcher. -/
def Obligations.UnsupportedNotReachableThroughDispatcher : Prop :=
  ∀ (s t : State) (tokens : List Token), Ready s →
    s.request = some ⟨.dispatcher, tokens⟩ → step s = .next t → t.rsp ≠ some (.error .unsupportedInstruction)

/-- R26 item 3 (spec decision D15), R119: a session presents one result per request, in request order, each the result
the constant tables give the request alone, however long the requester waits between requests. -/
def Obligations.RunPresentsResultsInRequestOrder : Prop :=
  ∀ (s : State) (offers : List (Option Request)), Ready s →
    session offers s = offers.map fun o => o.map resultOf

/-- R26 items 1 and 2, R108: the result of a request is the same whatever requests were served before it, failed or
not. -/
def Obligations.ResultIsIndependentOfEarlierRequests : Prop :=
  ∀ (s1 s2 : State) (before : List (Option Request)) (r : Request), Ready s1 → Ready s2 →
    ∃ res : Result, (session (before ++ [some r]) s1).getLast? = some (some res) ∧
      session [some r] s2 = [some res]

/-! ## The encode operations -/

/-- R66, R68, R69: ADD, AND, OR. -/
def Obligations.RegisterRegisterOperations : Prop :=
  RegisterRegisterShape .add 0b0000000#7 0b000#3 0x00000033#32 ∧
  RegisterRegisterShape .and 0b0000000#7 0b111#3 0x00007033#32 ∧
  RegisterRegisterShape .or 0b0000000#7 0b110#3 0x00006033#32

/-- R67: SUB, whose word differs from the ADD word of the same operands in bit 30 only. -/
def Obligations.SubOperation : Prop :=
  RegisterRegisterShape .sub 0b0100000#7 0b000#3 0x40000033#32 ∧
  ∀ (s t u : State) (ops : List Token) (w : Word), exec (.add ops) s = .next t → t.rsp = some (.word w) →
    exec (.sub ops) s = .next u → u.rsp = some (.word (w ^^^ 0x40000000#32))

/-- R74, R75: ADDI and ANDI. The field of an immediate outside -2048 to 2047 is `imm mod 4096` by spec decision D9. -/
def Obligations.AddiAndiOperations : Prop :=
  AddiShape .addi 0b000#3 0x00000013#32 ∧ AddiShape .andi 0b111#3 0x00007013#32

/-- R76: SRLI. The amount is unsigned in 24:20, the high seven bits are 0, an amount outside 0 to 31 is
`InvalidShiftAmount`, and the amount is read by `ParseImm`, so that it may carry a sign. -/
def Obligations.SrliOperation : Prop :=
  (∀ s : State, TwoRegisterImmediateShape Instr.srli s fun rd rs1 v =>
    if 0 ≤ v ∧ v ≤ 31 then
      .word (0b0000000#7 ++ BitVec.ofNat 5 v.toNat ++ u5 rs1 ++ 0b101#3 ++ u5 rd ++ 0b0010011#7)
    else .error .invalidShiftAmount) ∧
  (∀ (shamt : BitVec 5) (rs1 rd : Fin 32),
    let w : Word := 0b0000000#7 ++ shamt ++ u5 rs1 ++ 0b101#3 ++ u5 rd ++ 0b0010011#7
    w &&& 0xFE00707F#32 = 0x00005013#32 ∧ w.extractLsb' 25 7 = 0) ∧
  parseImm (tokenOf ['+', '5']) = some 5 ∧ parseImm (tokenOf ['-', '0']) = some 0 ∧
    parseImm (tokenOf ['-', '1']) = some (-1)

/-- R81 to R85: LB, LH, LW, LBU, LHU. -/
def Obligations.LoadOperations : Prop :=
  LoadShape .lb 0b000#3 0x00000003#32 ∧ LoadShape .lh 0b001#3 0x00001003#32 ∧ LoadShape .lw 0b010#3 0x00002003#32 ∧
  LoadShape .lbu 0b100#3 0x00004003#32 ∧ LoadShape .lhu 0b101#3 0x00005003#32

/-- R88 to R90: SB, SH, SW, whose words are identical for the same operands. -/
def Obligations.StoreOperations : Prop :=
  StoreShape .sb ∧ StoreShape .sh ∧ StoreShape .sw ∧
  ∀ (ops : List Token) (s : State), exec (.sb ops) s = exec (.sw ops) s ∧ exec (.sh ops) s = exec (.sw ops) s

/-- R87: swapping the two register tokens of a store changes the word, unless both name one register. -/
def Obligations.StoreRegisterOrderMatters : Prop :=
  ∀ i ∈ [Instr.sb, Instr.sh, Instr.sw], ∀ (s t u : State) (a b imm : Token) (w1 w2 : Word), TablesConstant s → a ≠ b →
    exec (i [a, b, imm]) s = .next t → t.rsp = some (.word w1) →
    exec (i [b, a, imm]) s = .next u → u.rsp = some (.word w2) → w1 ≠ w2

/-- R93 to R96: BEQ, BNE, BLT, BGE. The twelve bits of an immediate outside -2048 to 2047 are `imm mod 4096` by spec
decision D9. -/
def Obligations.BranchOperations : Prop :=
  BranchShape .beq 0b000#3 0x00000063#32 ∧ BranchShape .bne 0b001#3 0x00001063#32 ∧
  BranchShape .blt 0b100#3 0x00004063#32 ∧ BranchShape .bge 0b101#3 0x00005063#32

/-- R45: the Branch permutation bit by bit and its inverse, in every word a branch operation presents. -/
def Obligations.BranchPermutation : Prop :=
  ∀ i ∈ [Instr.beq, Instr.bne, Instr.blt, Instr.bge],
    ∀ (s t : State) (a b imm : Token) (d : Int) (w : Word), exec (i [a, b, imm]) s = .next t →
      t.rsp = some (.word w) → parseImm imm = some d →
      let v := tc 12 d
      w.getLsbD 31 = v.getLsbD 11 ∧ w.getLsbD 30 = v.getLsbD 9 ∧ w.getLsbD 29 = v.getLsbD 8 ∧
      w.getLsbD 28 = v.getLsbD 7 ∧ w.getLsbD 27 = v.getLsbD 6 ∧ w.getLsbD 26 = v.getLsbD 5 ∧
      w.getLsbD 25 = v.getLsbD 4 ∧ w.getLsbD 11 = v.getLsbD 10 ∧ w.getLsbD 10 = v.getLsbD 3 ∧
      w.getLsbD 9 = v.getLsbD 2 ∧ w.getLsbD 8 = v.getLsbD 1 ∧ w.getLsbD 7 = v.getLsbD 0 ∧
      v = w.extractLsb' 31 1 ++ w.extractLsb' 11 1 ++ w.extractLsb' 25 6 ++ w.extractLsb' 7 4

/-- R98, R99: JAL. The halving rounds toward zero by spec decision D10, the bounds are those of conflict C2 (spec
decision D11). -/
def Obligations.JumpOperation : Prop :=
  ∀ s : State,
    (∀ ops, ops.length ≠ 2 → Answers (.jal ops) s (.error .invalidFormat)) ∧
    (∀ d t, regResolve s.regTable d = none → Answers (.jal [d, t]) s (.error .invalidRegister)) ∧
    (∀ d t rd, regResolve s.regTable d = some rd → parseImm t = none →
      Answers (.jal [d, t]) s (.error .invalidImmediate)) ∧
    (∀ d t rd imm, regResolve s.regTable d = some rd → parseImm t = some imm →
      ¬ (-524288 ≤ half imm ∧ half imm ≤ 524287) → Answers (.jal [d, t]) s (.error .immediateOutOfRange)) ∧
    (∀ d t rd imm, regResolve s.regTable d = some rd → parseImm t = some imm →
      -524288 ≤ half imm → half imm ≤ 524287 →
      let v := BitVec.ofInt 20 (half imm)
      ∃ w : Word, Answers (.jal [d, t]) s (.word w) ∧
        w = v.extractLsb' 19 1 ++ v.extractLsb' 0 10 ++ v.extractLsb' 10 1 ++ v.extractLsb' 11 8 ++ u5 rd ++
          0b1101111#7 ∧
        w &&& 0x0000007F#32 = 0x0000006F#32)

/-- R46: the Jump permutation and its inverse in every word JAL presents, and its reading against the byte
displacement: for even `d`, `v[k] = d[k+1]`. -/
def Obligations.JumpPermutation : Prop :=
  ∀ (s t : State) (a imm : Token) (d : Int) (w : Word), exec (.jal [a, imm]) s = .next t →
    t.rsp = some (.word w) → parseImm imm = some d →
    let v := tc 20 (half d)
    w.getLsbD 31 = v.getLsbD 19 ∧ w.extractLsb' 21 10 = v.extractLsb' 0 10 ∧ w.getLsbD 20 = v.getLsbD 10 ∧
    w.extractLsb' 12 8 = v.extractLsb' 11 8 ∧
    v = w.extractLsb' 31 1 ++ w.extractLsb' 12 8 ++ w.extractLsb' 20 1 ++ w.extractLsb' 21 10 ∧
    (d % 2 = 0 → ∀ k, k < 20 → v.getLsbD k = (tc 21 d).getLsbD (k + 1))

/-- R98 corner case 1 (D10, D11): with a register name and a readable immediate, JAL presents a word exactly for
token values -1048577 to 1048575. -/
def Obligations.JumpAcceptedTokenValues : Prop :=
  ∀ (s : State) (a imm : Token) (rd : Fin 32) (d : Int), regResolve s.regTable a = some rd → parseImm imm = some d →
    ((∃ w, Answers (.jal [a, imm]) s (.word w)) ↔ -1048577 ≤ d ∧ d ≤ 1048575) ∧
    (Answers (.jal [a, imm]) s (.error .immediateOutOfRange) ↔ ¬ (-1048577 ≤ d ∧ d ≤ 1048575))

/-- R101, column "raised by": the error kinds each format's operations may present. -/
def Obligations.ErrorKindsPerFormat : Prop :=
  ∀ (i : Instr) (s t : State) (k : ErrorKind), exec i s = .next t → t.rsp = some (.error k) →
    k ∈ match (mnemonicOf i).format with
      | .registerRegister => [ErrorKind.invalidFormat, .invalidRegister]
      | .registerImmediate =>
        if mnemonicOf i = Mnemonic.srli then
          [ErrorKind.invalidFormat, .invalidRegister, .invalidImmediate, .invalidShiftAmount]
        else [ErrorKind.invalidFormat, .invalidRegister, .invalidImmediate]
      | .load => [ErrorKind.invalidFormat, .invalidRegister, .invalidImmediate, .immediateOutOfRange]
      | .store => [ErrorKind.invalidFormat, .invalidRegister, .invalidImmediate, .immediateOutOfRange]
      | .branch => [ErrorKind.invalidFormat, .invalidRegister, .invalidImmediate]
      | .jump => [ErrorKind.invalidFormat, .invalidRegister, .invalidImmediate, .immediateOutOfRange]

/-- R77: a mnemonic other than ADDI, ANDI, SRLI handed directly to the RegisterImmediate encoder is
`UnsupportedInstruction` after the count, both registers and the parse; a mnemonic with no dispatch row is
`UnknownInstruction` through `encode` with the same operands. -/
def Obligations.OtherMnemonicsAtRegisterImmediate : Prop :=
  ∀ (s : State) (m : Token) (ops : List Token), Ready s →
    m ∉ [tokenOf ['A', 'D', 'D', 'I'], tokenOf ['A', 'N', 'D', 'I'], tokenOf ['S', 'R', 'L', 'I']] →
    (s.request = some ⟨.encoder .registerImmediate, m :: ops⟩ →
      (ops.length ≠ 3 → StepAnswers s (.error .invalidFormat)) ∧
      (∀ d a t, ops = [d, a, t] →
        (regResolve s.regTable d = none ∨ regResolve s.regTable a = none → StepAnswers s (.error .invalidRegister)) ∧
        ((regResolve s.regTable d).isSome → (regResolve s.regTable a).isSome →
          (parseImm t = none → StepAnswers s (.error .invalidImmediate)) ∧
          ((parseImm t).isSome → StepAnswers s (.error .unsupportedInstruction))))) ∧
    (s.request = some ⟨.dispatcher, m :: ops⟩ → dispatchLookup s.dispatchTable m = none →
      StepAnswers s (.error .unknownInstruction))

/-- R63 (spec decision D13, log 12): a mnemonic outside the set of an encoder driven directly. RegisterRegister, Load and
Branch raise `UnsupportedInstruction` where every other check passes; Store and Jump ignore the mnemonic. -/
def Obligations.OtherMnemonicsAtTheOtherEncoders : Prop :=
  ∀ (s : State) (m d a b t : Token) (rd ra rb : Fin 32) (v : Int), Ready s →
    regResolve s.regTable d = some rd → regResolve s.regTable a = some ra → regResolve s.regTable b = some rb →
    parseImm t = some v →
    (m ∉ FormatClass.registerRegister.mnemonics.map Mnemonic.token →
      s.request = some ⟨.encoder .registerRegister, [m, d, a, b]⟩ →
      StepAnswers s (.error .unsupportedInstruction)) ∧
    (m ∉ FormatClass.load.mnemonics.map Mnemonic.token → -2048 ≤ v → v ≤ 2047 →
      s.request = some ⟨.encoder .load, [m, d, a, t]⟩ → StepAnswers s (.error .unsupportedInstruction)) ∧
    (m ∉ FormatClass.branch.mnemonics.map Mnemonic.token →
      s.request = some ⟨.encoder .branch, [m, d, a, t]⟩ → StepAnswers s (.error .unsupportedInstruction)) ∧
    (s.request = some ⟨.encoder .store, [m, d, a, t]⟩ →
      StepAnswers s (encStore s.regTable [Mnemonic.sw.token, d, a, t])) ∧
    (s.request = some ⟨.encoder .jump, [m, d, t]⟩ →
      StepAnswers s (encJump s.regTable [Mnemonic.jal.token, d, t]))

/-! ## Operands and ports -/

/-- R40 (spec decisions D7, D8): a token is an immediate of value `v` exactly when it is an optional single sign
followed by one or more decimal digits whose value, negated under '-', is `v`. -/
def Obligations.ImmediateGrammar : Prop :=
  ∀ (t : Token) (v : Int), parseImm t = some v ↔
    ∃ (sign digits : Token), t = sign ++ digits ∧ (sign = [] ∨ sign = tokenOf ['-'] ∨ sign = tokenOf ['+']) ∧
      digits ≠ [] ∧ (∀ c ∈ digits, 48 ≤ c.toNat ∧ c.toNat ≤ 57) ∧
      v = (if sign = tokenOf ['-'] then -1 else 1) * (digits.foldl (fun n c => n * 10 + (c.toNat - 48)) 0 : Nat)

/-- R41: `tc_N(v)` has the unsigned value `v mod 2^N`, and represents every N-bit signed `v` exactly. Outside that
interval the low bits are kept by spec decision D9. -/
def Obligations.TwosComplementFields : Prop :=
  (∀ (n : Nat) (v : Int), ((tc n v).toNat : Int) = v % 2 ^ n) ∧
  (∀ v : Int, -2048 ≤ v → v ≤ 2047 → (tc 12 v).toInt = v) ∧
  (∀ v : Int, -524288 ≤ v → v ≤ 524287 → (tc 20 v).toInt = v)

/-- R44 (spec decision D10): the halving rounds toward zero. -/
def Obligations.HalvingRoundsTowardZero : Prop :=
  (∀ v : Int, 0 ≤ v → half v = v / 2) ∧ (∀ v : Int, v < 0 → half v = -(-v / 2))

/-- R31 (spec decision D24): a token that holds a comma or a space names no register, is no immediate and is no
mnemonic. -/
def Obligations.StrayCharactersMatchNothing : Prop :=
  ∀ (s : State) (t : Token) (c : Char8), TablesConstant s → c ∈ t → c = 0x2C#8 ∨ c = 0x20#8 →
    regResolve s.regTable t = none ∧ parseImm t = none ∧ ∀ mn : Mnemonic, mn.token ≠ t

/-- R32, R102 (spec decisions D5, D6): the response lines. -/
def Obligations.ResponseLines : Prop :=
  ∀ s : State,
    (s.rsp = none → s.rspPort = none) ∧
    (s.rsp = some .empty → s.rspPort = some ⟨0, none, 0⟩) ∧
    (∀ w, s.rsp = some (.word w) → s.rspPort = some ⟨1, some w, 0⟩) ∧
    (∀ k, s.rsp = some (.error k) → ∃ code, s.rspPort = some ⟨2, none, code⟩ ∧
      code.toNat = match k with
        | .invalidFormat => 1
        | .invalidRegister => 2
        | .invalidImmediate => 3
        | .immediateOutOfRange => 4
        | .invalidShiftAmount => 5
        | .unsupportedInstruction => 6
        | .unknownInstruction => 7)

/-- R30, R32 (D3, U8, log 13): the request port carries every token list within the realisation's bounds unchanged to the
dispatcher, and no other list. Sampled lines without a valid request present none; lines of a valid request outside the
realisation's domain are given no meaning (U8, the model's choice: log 13). -/
def Obligations.RequestPortCarriesTokens : Prop :=
  (∀ (ts : List Token) (p : ReqPort) (s : State), ReqPort.drive ts = some p →
    p.tokens = ts ∧ s.sample p = some (s.offer (some ⟨.dispatcher, ts⟩))) ∧
  (∀ ts : List Token, ReqPort.drive ts = none ↔
    Config.maxTokens < ts.length ∨ ∃ t ∈ ts, Config.maxTokenChars < t.length) ∧
  (∀ (p : ReqPort) (s : State), (p.valid = false → s.sample p = some (s.offer none)) ∧
    (s.sample p = none ↔ p.valid = true ∧ p.inDomain = false)) ∧
  5 ≤ Config.maxTokens ∧ 8 ≤ Config.maxTokenChars

/-- R6, R33: the word as RVA's string: exactly 32 characters over '0' and '1', character k being `word[31-k]`. -/
def Obligations.WordStringIsMostSignificantFirst : Prop :=
  ∀ w : Word, (wordString w).length = 32 ∧
    ∀ k, k < 32 → (wordString w)[k]? = some (if w.getLsbD (31 - k) then 0x31#8 else 0x30#8)

/-! ## Words -/

/-- Decoding an encoded canonical instruction gives it back: every family, every register, every immediate the
field represents. The word decoder and its canonical spelling are the model's choice (log 6); `SB` and `SH` have the
word of `SW` (log 4). -/
def Obligations.DecodeEncodeRoundTrip : Prop :=
  ∀ i : Instr, canonical i = true → ∃ w, encode i = some w ∧ decodeWord w = .ok i

/-- The word of ANY well-formed instruction (any spelling of its immediate, any value, SB and SH too) decodes to a
canonical instruction of the same word (the word decoder is the model's: logs 4, 6). -/
def Obligations.EncodedWordsDecode : Prop :=
  ∀ (i : Instr) (w : Word), encode i = some w → ∃ j, decodeWord w = .ok j ∧ canonical j = true ∧ encode j = some w

/-- A word that decodes is the word of what it decodes to, which is canonical: no bit is dropped (the word decoder is
the model's: logs 4, 6). -/
def Obligations.DecodedWordsReencode : Prop :=
  ∀ (w : Word) (i : Instr), decodeWord w = .ok i → canonical i = true ∧ encode i = some w

/-- No word carries the fixed bits of two decodable mnemonics (`SB` and `SH` left out: log 4). -/
def Obligations.OpcodeRowsAreDisjoint : Prop :=
  ∀ (w : Word) (m1 m2 : Mnemonic), m1 ∈ decodableMnemonics → m2 ∈ decodableMnemonics →
    matchesRow w m1 = true → matchesRow w m2 = true → m1 = m2

/-- The machine and the opcode table agree: with the constant tables, every well-formed instruction completes and
presents the word that the table's match value and field places give, and every other instruction presents an
error. -/
def Obligations.ExecPresentsTheEncodedWord : Prop :=
  ∀ (i : Instr) (s : State), TablesConstant s →
    (i.wellFormed = true ↔ (encode i).isSome = true) ∧
    (∀ w, encode i = some w → Answers i s (.word w)) ∧
    (encode i = none → ∃ k, Answers i s (.error k))

/-- An ill-formed instruction completes with the error of its FIRST flaw (R105), a well-formed one with none. -/
def Obligations.FirstFlawIsTheErrorRaised : Prop :=
  ∀ (i : Instr) (s : State), TablesConstant s →
    (∀ f, i.flaw = some f → Answers i s (.error (flawKind f))) ∧ (i.flaw = none → ∃ w, Answers i s (.word w))

/-- The words printed by the source (RVA section 8, 95_test_vectors.md part 1) and one per other family decode to
their instructions (the word decoder is the model's: logs 4, 6). -/
def Obligations.PrintedWordsDecode : Prop :=
  decodeWord 0b00000000001100010000000010110011#32 = .ok (.add [tokenOf ['x', '1'], tokenOf ['x', '2'], tokenOf ['x', '3']]) ∧
  decodeWord 0b00000000101000000000001010010011#32 = .ok (.addi [tokenOf ['x', '5'], tokenOf ['x', '0'], tokenOf ['1', '0']]) ∧
  decodeWord 0b00000000010000010010000010000011#32 = .ok (.lw [tokenOf ['x', '1'], tokenOf ['x', '2'], tokenOf ['4']]) ∧
  decodeWord 0b00000000000100010010001000100011#32 = .ok (.sw [tokenOf ['x', '1'], tokenOf ['x', '2'], tokenOf ['4']]) ∧
  decodeWord 0b11111110001000001101111101100011#32 = .ok (.bge [tokenOf ['x', '1'], tokenOf ['x', '2'], tokenOf ['-', '2']]) ∧
  decodeWord 0b00000000100000000000000011101111#32 = .ok (.jal [tokenOf ['x', '1'], tokenOf ['8']])

/-- The step after `withFetchWord` runs exactly the instruction the table word decodes to, and presents that word
(the model's way to place an instruction: log 5). -/
def Obligations.FetchWordRunsItsInstruction : Prop :=
  ∀ (s : State) (w : Nat) (i : Instr), w < 2 ^ 32 → decodeTableWord 32 w = some i →
    step (s.withFetchWord 32 w) =
      exec i { s with regTable := registerRom, dispatchTable := dispatchRom, request := none, resetIn := false } ∧
    ∃ t, step (s.withFetchWord 32 w) = .next t ∧ t.rsp = some (.word (BitVec.ofNat 32 w)) ∧ t.request = none

/-- R15, R17: a step reads the tables, the reset line and the request presented, and nothing an earlier transaction
left: the result it finds on the output changes nothing of what it answers. -/
def Obligations.StepForgetsTheLastResult : Prop :=
  ∀ s1 s2 : State, s1.toBlock = s2.toBlock → s1.request = s2.request → s1.resetIn = s2.resetIn → step s1 = step s2
end

