-- ==== Sys2Proof/Laws/Encoders.lean ====
section
/-! SUPPORT. What each format encoder answers, check by check: the lemmas the proofs cite in place of unfolding an
encoder. -/

namespace Sys2Proof.Machine

variable {table : List RegEntry}

/-! ## Counts -/

theorem encRR_count {tokens : List Token} (h : tokens.length ≠ 4) :
    encRR table tokens = .error .invalidFormat := by
  unfold encRR; split
  · simp at h
  · rfl

theorem encRI_count {tokens : List Token} (h : tokens.length ≠ 4) :
    encRI table tokens = .error .invalidFormat := by
  unfold encRI; split
  · simp at h
  · rfl

theorem encLoad_count {tokens : List Token} (h : tokens.length ≠ 4) :
    encLoad table tokens = .error .invalidFormat := by
  unfold encLoad; split
  · simp at h
  · rfl

theorem encStore_count {tokens : List Token} (h : tokens.length ≠ 4) :
    encStore table tokens = .error .invalidFormat := by
  unfold encStore; split
  · simp at h
  · rfl

theorem encBranch_count {tokens : List Token} (h : tokens.length ≠ 4) :
    encBranch table tokens = .error .invalidFormat := by
  unfold encBranch; split
  · simp at h
  · rfl

theorem encJump_count {tokens : List Token} (h : tokens.length ≠ 3) :
    encJump table tokens = .error .invalidFormat := by
  unfold encJump; split
  · simp at h
  · rfl

/-! ## Registers -/

variable {m d a b t : Token}

theorem encRR_register (h : regResolve table d = none ∨ regResolve table a = none ∨ regResolve table b = none) :
    encRR table [m, d, a, b] = .error .invalidRegister := by
  cases hd : regResolve table d <;> cases ha : regResolve table a <;> cases hb : regResolve table b <;>
    simp_all [encRR, raise]

theorem encRI_register (h : regResolve table d = none ∨ regResolve table a = none) :
    encRI table [m, d, a, t] = .error .invalidRegister := by
  cases hd : regResolve table d <;> cases ha : regResolve table a <;> simp_all [encRI, raise]

theorem encLoad_register (h : regResolve table d = none ∨ regResolve table a = none) :
    encLoad table [m, d, a, t] = .error .invalidRegister := by
  cases hd : regResolve table d <;> cases ha : regResolve table a <;> simp_all [encLoad, raise]

theorem encStore_register (h : regResolve table d = none ∨ regResolve table a = none) :
    encStore table [m, d, a, t] = .error .invalidRegister := by
  cases hd : regResolve table d <;> cases ha : regResolve table a <;> simp_all [encStore, raise]

theorem encBranch_register (h : regResolve table d = none ∨ regResolve table a = none) :
    encBranch table [m, d, a, t] = .error .invalidRegister := by
  cases hd : regResolve table d <;> cases ha : regResolve table a <;> simp_all [encBranch, raise]

theorem encJump_register (h : regResolve table d = none) : encJump table [m, d, t] = .error .invalidRegister := by
  simp [encJump, h, raise]

/-! ## Immediates -/

variable {r1 r2 r3 : Fin 32} {v : Int}

theorem encRI_parse (h1 : regResolve table d = some r1) (h2 : regResolve table a = some r2) (h : parseImm t = none) :
    encRI table [m, d, a, t] = .error .invalidImmediate := by simp [encRI, h1, h2, h, raise]

theorem encLoad_parse (h1 : regResolve table d = some r1) (h2 : regResolve table a = some r2) (h : parseImm t = none) :
    encLoad table [m, d, a, t] = .error .invalidImmediate := by simp [encLoad, h1, h2, h, raise]

theorem encStore_parse (h1 : regResolve table d = some r1) (h2 : regResolve table a = some r2) (h : parseImm t = none) :
    encStore table [m, d, a, t] = .error .invalidImmediate := by simp [encStore, h1, h2, h, raise]

theorem encBranch_parse (h1 : regResolve table d = some r1) (h2 : regResolve table a = some r2)
    (h : parseImm t = none) : encBranch table [m, d, a, t] = .error .invalidImmediate := by
  simp [encBranch, h1, h2, h, raise]

theorem encJump_parse (h1 : regResolve table d = some r1) (h : parseImm t = none) :
    encJump table [m, d, t] = .error .invalidImmediate := by simp [encJump, h1, h, raise]

/-! ## Past the parse -/

theorem encRR_done (h1 : regResolve table d = some r1) (h2 : regResolve table a = some r2)
    (h3 : regResolve table b = some r3) :
    encRR table [m, d, a, b] =
      match rrConstants m with
      | some (funct7, funct3) => .word (rrWord funct7 (u5 r3) (u5 r2) funct3 (u5 r1))
      | none => .error .unsupportedInstruction := by simp only [encRR, h1, h2, h3, raise] <;> rfl

theorem encRI_done (h1 : regResolve table d = some r1) (h2 : regResolve table a = some r2) (h : parseImm t = some v) :
    encRI table [m, d, a, t] =
      if m = Mnemonic.srli.token then
        if inRange 0 31 v then .word (shiftWord (u5 v.toNat) (u5 r2) (u5 r1)) else .error .invalidShiftAmount
      else if m = Mnemonic.addi.token then .word (riWord (tc 12 v) (u5 r2) 0b000 (u5 r1))
      else if m = Mnemonic.andi.token then .word (riWord (tc 12 v) (u5 r2) 0b111 (u5 r1))
      else .error .unsupportedInstruction := by simp only [encRI, h1, h2, h, raise]

theorem encLoad_done (h1 : regResolve table d = some r1) (h2 : regResolve table a = some r2) (h : parseImm t = some v) :
    encLoad table [m, d, a, t] =
      if inRange lsImmMin lsImmMax v then
        match loadFunct3 m with
        | some funct3 => .word (loadWord (tc 12 v) (u5 r2) funct3 (u5 r1))
        | none => .error .unsupportedInstruction
      else .error .immediateOutOfRange := by
  simp only [encLoad, h1, h2, h, raise] <;> rfl

theorem encStore_done (h1 : regResolve table d = some r1) (h2 : regResolve table a = some r2)
    (h : parseImm t = some v) :
    encStore table [m, d, a, t] =
      if inRange lsImmMin lsImmMax v then .word (storeWord (tc 12 v) (u5 r1) (u5 r2))
      else .error .immediateOutOfRange := by simp only [encStore, h1, h2, h, raise]

theorem encBranch_done (h1 : regResolve table d = some r1) (h2 : regResolve table a = some r2)
    (h : parseImm t = some v) :
    encBranch table [m, d, a, t] =
      match branchFunct3 m with
      | some funct3 => .word (branchWord (tc 12 v) (u5 r2) (u5 r1) funct3)
      | none => .error .unsupportedInstruction := by
  simp only [encBranch, h1, h2, h, raise] <;> rfl

theorem encJump_done (h1 : regResolve table d = some r1) (h : parseImm t = some v) :
    encJump table [m, d, t] =
      if inRange jalHMin jalHMax (half v) then .word (jumpWord (tc 20 (half v)) (u5 r1))
      else .error .immediateOutOfRange := by simp only [encJump, h1, h, raise]

end Sys2Proof.Machine
end

