-- ==== Sys2Proof/Laws/Inversion.lean ====
section
/-! SUPPORT. The inversion of each encoder: what follows from the word it answers. -/

namespace Sys2Proof.Machine

/-! ## What a word says: the inversion of each encoder -/

variable {table : List RegEntry} {m : Token} {tokens : List Token} {w : Word}

theorem encRR_word (h : encRR table tokens = .word w) :
    ∃ m d a b rd rs1 rs2 f7 f3, tokens = [m, d, a, b] ∧ regResolve table d = some rd ∧ regResolve table a = some rs1 ∧
      regResolve table b = some rs2 ∧ rrConstants m = some (f7, f3) ∧ w = rrWord f7 (u5 rs2) (u5 rs1) f3 (u5 rd) := by
  unfold encRR at h
  repeat' split at h
  all_goals simp_all [raise]

theorem encRI_word (h : encRI table tokens = .word w) :
    ∃ m d a t rd rs1 v, tokens = [m, d, a, t] ∧ regResolve table d = some rd ∧ regResolve table a = some rs1 ∧
      parseImm t = some v ∧
      ((m = Mnemonic.srli.token ∧ inRange 0 31 v = true ∧ w = shiftWord (u5 v.toNat) (u5 rs1) (u5 rd)) ∨
       (m = Mnemonic.addi.token ∧ w = riWord (tc 12 v) (u5 rs1) 0b000 (u5 rd)) ∨
       (m = Mnemonic.andi.token ∧ w = riWord (tc 12 v) (u5 rs1) 0b111 (u5 rd))) := by
  unfold encRI at h
  repeat' split at h
  all_goals first
    | (simp [raise] at h; done)
    | (injection h with h; subst h
       exact ⟨_, _, _, _, _, _, _, rfl, by assumption, by assumption, by assumption, by simp_all⟩)

theorem encLoad_word (h : encLoad table tokens = .word w) :
    ∃ m d a t rd rs1 v f3, tokens = [m, d, a, t] ∧ regResolve table d = some rd ∧ regResolve table a = some rs1 ∧
      parseImm t = some v ∧ inRange lsImmMin lsImmMax v = true ∧ loadFunct3 m = some f3 ∧
      w = loadWord (tc 12 v) (u5 rs1) f3 (u5 rd) := by
  unfold encLoad at h
  repeat' split at h
  all_goals simp_all [raise]

theorem encStore_word (h : encStore table tokens = .word w) :
    ∃ m b a t rs2 rs1 v, tokens = [m, b, a, t] ∧ regResolve table b = some rs2 ∧ regResolve table a = some rs1 ∧
      parseImm t = some v ∧ inRange lsImmMin lsImmMax v = true ∧ w = storeWord (tc 12 v) (u5 rs2) (u5 rs1) := by
  unfold encStore at h
  repeat' split at h
  all_goals simp_all [raise]

theorem encBranch_word (h : encBranch table tokens = .word w) :
    ∃ m a b t rs1 rs2 v f3, tokens = [m, a, b, t] ∧ regResolve table a = some rs1 ∧ regResolve table b = some rs2 ∧
      parseImm t = some v ∧ branchFunct3 m = some f3 ∧ w = branchWord (tc 12 v) (u5 rs2) (u5 rs1) f3 := by
  unfold encBranch at h
  repeat' split at h
  all_goals simp_all [raise]

theorem encJump_word (h : encJump table tokens = .word w) :
    ∃ m d t rd v, tokens = [m, d, t] ∧ regResolve table d = some rd ∧ parseImm t = some v ∧
      inRange jalHMin jalHMax (half v) = true ∧ w = jumpWord (tc 20 (half v)) (u5 rd) := by
  unfold encJump at h
  repeat' split at h
  all_goals simp_all [raise]

/-! ## The constants of a mnemonic -/

theorem rrConstants_some {f7 : BitVec 7} {f3 : BitVec 3} (h : rrConstants m = some (f7, f3)) :
    (m = Mnemonic.add.token ∧ f7 = 0b0000000 ∧ f3 = 0b000) ∨ (m = Mnemonic.sub.token ∧ f7 = 0b0100000 ∧ f3 = 0b000) ∨
    (m = Mnemonic.and.token ∧ f7 = 0b0000000 ∧ f3 = 0b111) ∨ (m = Mnemonic.or.token ∧ f7 = 0b0000000 ∧ f3 = 0b110) := by
  unfold rrConstants at h
  repeat' split at h
  all_goals simp_all

theorem loadFunct3_some {f3 : BitVec 3} (h : loadFunct3 m = some f3) :
    (m = Mnemonic.lb.token ∧ f3 = 0b000) ∨ (m = Mnemonic.lh.token ∧ f3 = 0b001) ∨
    (m = Mnemonic.lw.token ∧ f3 = 0b010) ∨ (m = Mnemonic.lbu.token ∧ f3 = 0b100) ∨
    (m = Mnemonic.lhu.token ∧ f3 = 0b101) := by
  unfold loadFunct3 at h
  repeat' split at h
  all_goals simp_all

theorem branchFunct3_some {f3 : BitVec 3} (h : branchFunct3 m = some f3) :
    (m = Mnemonic.beq.token ∧ f3 = 0b000) ∨ (m = Mnemonic.bne.token ∧ f3 = 0b001) ∨
    (m = Mnemonic.blt.token ∧ f3 = 0b100) ∨ (m = Mnemonic.bge.token ∧ f3 = 0b101) := by
  unfold branchFunct3 at h
  repeat' split at h
  all_goals simp_all

end Sys2Proof.Machine
end

