-- ==== Sys2Proof/Laws/Operands.lean ====
section
/-! SUPPORT. What the operand operations do: register names, decimal numerals, immediates. -/

namespace Sys2Proof.Machine

/-- A register token of the decoder's spelling resolves to its index. -/
theorem regResolve_regToken (r : BitVec 5) : regResolve registerRom (regToken r) = some r.toFin := by
  have h : ∀ n : Fin 32, regResolve registerRom (regToken (BitVec.ofFin n)) = some n := by decide
  exact h r.toFin

/-- A token resolves only as the spelling of its index. -/
theorem regResolve_some_spelling {t : Token} {i : Fin 32} (h : regResolve registerRom t = some i) :
    t = regToken (BitVec.ofFin i) := by
  have key : ∀ e ∈ registerRom, e.key = regToken (BitVec.ofFin e.index) := by decide
  simp only [regResolve, Option.map_eq_some_iff] at h
  obtain ⟨e, he, rfl⟩ := h
  have hk := List.find?_some he
  simp only [beq_iff_eq] at hk
  exact hk ▸ key e (List.mem_of_find?_eq_some he)

/-- A 5-bit field is the plain binary of its own value (spec/30_encoding.md R43). -/
@[simp] theorem u5_toNat (r : BitVec 5) : u5 r.toNat = r := by simp [u5]

/-- A resolved register token is the decoder's spelling of its field. -/
theorem regToken_of_resolve {t : Token} {i : Fin 32} (h : regResolve registerRom t = some i) :
    regToken (u5 i) = t := by
  rw [regResolve_some_spelling h]
  congr 1
  apply BitVec.eq_of_toNat_eq
  simp [u5]

/-- Two indices with one field are one index. -/
theorem u5_injective {a b : Fin 32} (h : u5 a = u5 b) : a = b := by
  have := congrArg BitVec.toNat h
  simp [u5] at this
  omega

/-- The range validator is true exactly between its bounds (spec/30_encoding.md R42). -/
@[simp] theorem inRange_iff {lo hi v : Int} : inRange lo hi v = true ↔ lo ≤ v ∧ v ≤ hi := by simp [inRange]

/-- The value of a digit character. -/
theorem digitValue_digit {d : Nat} (h : d < 10) : digitValue (BitVec.ofNat 8 (48 + d)) = some d := by
  have : ∀ d : Fin 10, digitValue (BitVec.ofNat 8 (48 + d.val)) = some d.val := by decide
  exact this ⟨d, h⟩

/-- Reading digits one after another. -/
theorem parseDigits_append (acc : Nat) (xs ys : Token) :
    parseDigits acc (xs ++ ys) = (parseDigits acc xs).bind fun n => parseDigits n ys := by
  induction xs generalizing acc with
  | nil => rfl
  | cons c cs ih => cases h : digitValue c <;> simp [parseDigits, h, ih]

/-- The digits of `n` read back as `n` when the fuel bounds it. -/
theorem parseDigits_decDigits (fuel n : Nat) (h : n < 2 ^ fuel) : parseDigits 0 (decDigits fuel n) = some n := by
  induction fuel generalizing n with
  | zero => simp at h; subst h; rfl
  | succ fuel ih =>
    by_cases h10 : n < 10
    · simp [decDigits, h10, parseDigits, digitValue_digit h10]
    · have hq : n / 10 < 2 ^ fuel := by rw [Nat.pow_succ] at h; omega
      simp [decDigits, h10, parseDigits_append, ih _ hq, parseDigits, digitValue_digit (Nat.mod_lt n (by decide : 10 > 0))]
      omega

/-- A numeral begins with a digit character. -/
theorem decDigits_head (fuel n : Nat) :
    ∃ d cs, d < 10 ∧ decDigits (fuel + 1) n = BitVec.ofNat 8 (48 + d) :: cs := by
  induction fuel generalizing n with
  | zero =>
    by_cases h10 : n < 10
    · exact ⟨n, [], h10, by simp [decDigits, h10]⟩
    · exact ⟨n % 10, [], Nat.mod_lt n (by decide), by simp [decDigits, h10]⟩
  | succ fuel ih =>
    by_cases h10 : n < 10
    · exact ⟨n, [], h10, by simp [decDigits, h10]⟩
    · obtain ⟨d, cs, hd, h⟩ := ih (n / 10)
      refine ⟨d, cs ++ [BitVec.ofNat 8 (48 + n % 10)], hd, ?_⟩
      rw [decDigits, if_neg h10, h, List.cons_append]

/-- A numeral reads back as its number. -/
theorem parseUnsigned_natToken (n : Nat) : parseUnsigned (natToken n) = some n := by
  obtain ⟨d, cs, -, h⟩ := decDigits_head n.log2 n
  have hv := parseDigits_decDigits (n.log2 + 1) n Nat.lt_log2_self
  simp only [natToken, h, parseUnsigned] at *
  exact hv

/-- A digit character is no sign. -/
theorem digit_ne_sign {d : Nat} (h : d < 10) :
    BitVec.ofNat 8 (48 + d) ≠ minusSign ∧ BitVec.ofNat 8 (48 + d) ≠ plusSign := by
  have : ∀ d : Fin 10, BitVec.ofNat 8 (48 + d.val) ≠ minusSign ∧ BitVec.ofNat 8 (48 + d.val) ≠ plusSign := by decide
  exact this ⟨d, h⟩

/-- An immediate token of the decoder's spelling reads back as its value. -/
theorem parseImm_immToken (v : Int) : parseImm (immToken v) = some v := by
  by_cases hv : v < 0
  · simp only [immToken, if_pos hv, parseImm, if_true, parseUnsigned_natToken, Option.map_some, Option.some.injEq]
    omega
  · obtain ⟨d, cs, hd, h⟩ := decDigits_head v.natAbs.log2 v.natAbs
    have hp := parseUnsigned_natToken v.natAbs
    simp only [natToken, h] at hp
    simp only [immToken, if_neg hv, natToken, h, parseImm, if_neg (digit_ne_sign hd).1, if_neg (digit_ne_sign hd).2, hp,
      Option.map_some, Option.some.injEq]
    omega

end Sys2Proof.Machine
end

