-- ==== Sys2Proof/Laws/PerInstr.lean ====
section
/-! SUPPORT. Facts about the instruction as syntax, one lemma per constructor. -/

/-- An instruction is its mnemonic with its operand tokens. -/
def Sys2Proof.Laws.Rebuild.Statement (i : Sys2Proof.Instr) : Prop :=
  (Sys2Proof.Machine.mnemonicOf i).instr (Sys2Proof.Machine.operandsOf i) = i

namespace Sys2Proof.Laws.Rebuild

theorem add (ops : List Token) : Statement (.add ops) := rfl
theorem sub (ops : List Token) : Statement (.sub ops) := rfl
theorem and (ops : List Token) : Statement (.and ops) := rfl
theorem or (ops : List Token) : Statement (.or ops) := rfl
theorem addi (ops : List Token) : Statement (.addi ops) := rfl
theorem andi (ops : List Token) : Statement (.andi ops) := rfl
theorem srli (ops : List Token) : Statement (.srli ops) := rfl
theorem lb (ops : List Token) : Statement (.lb ops) := rfl
theorem lh (ops : List Token) : Statement (.lh ops) := rfl
theorem lw (ops : List Token) : Statement (.lw ops) := rfl
theorem lbu (ops : List Token) : Statement (.lbu ops) := rfl
theorem lhu (ops : List Token) : Statement (.lhu ops) := rfl
theorem sb (ops : List Token) : Statement (.sb ops) := rfl
theorem sh (ops : List Token) : Statement (.sh ops) := rfl
theorem sw (ops : List Token) : Statement (.sw ops) := rfl
theorem beq (ops : List Token) : Statement (.beq ops) := rfl
theorem bne (ops : List Token) : Statement (.bne ops) := rfl
theorem blt (ops : List Token) : Statement (.blt ops) := rfl
theorem bge (ops : List Token) : Statement (.bge ops) := rfl
theorem jal (ops : List Token) : Statement (.jal ops) := rfl

end Sys2Proof.Laws.Rebuild
end

