-- ==== Sys2Proof/Laws/State.lean ====
section
/-! SUPPORT. One lemma per field per update of State, so that no proof unfolds a record update. -/

namespace Sys2Proof.Machine

@[simp] theorem State.present_toBlock (s : State) (r : Result) : (s.present r).toBlock = s.toBlock := rfl
@[simp] theorem State.present_regTable (s : State) (r : Result) : (s.present r).regTable = s.regTable := rfl
@[simp] theorem State.present_dispatchTable (s : State) (r : Result) : (s.present r).dispatchTable = s.dispatchTable := rfl
@[simp] theorem State.present_request (s : State) (r : Result) : (s.present r).request = s.request := rfl
@[simp] theorem State.present_resetIn (s : State) (r : Result) : (s.present r).resetIn = s.resetIn := rfl
@[simp] theorem State.present_rsp (s : State) (r : Result) : (s.present r).rsp = some r := rfl

@[simp] theorem State.accept_toBlock (s : State) : (s.accept).toBlock = s.toBlock := rfl
@[simp] theorem State.accept_regTable (s : State) : (s.accept).regTable = s.regTable := rfl
@[simp] theorem State.accept_dispatchTable (s : State) : (s.accept).dispatchTable = s.dispatchTable := rfl
@[simp] theorem State.accept_request (s : State) : (s.accept).request = none := rfl
@[simp] theorem State.accept_resetIn (s : State) : (s.accept).resetIn = s.resetIn := rfl
@[simp] theorem State.accept_rsp (s : State) : (s.accept).rsp = s.rsp := rfl

@[simp] theorem State.idle_toBlock (s : State) : (s.idle).toBlock = s.toBlock := rfl
@[simp] theorem State.idle_regTable (s : State) : (s.idle).regTable = s.regTable := rfl
@[simp] theorem State.idle_dispatchTable (s : State) : (s.idle).dispatchTable = s.dispatchTable := rfl
@[simp] theorem State.idle_request (s : State) : (s.idle).request = s.request := rfl
@[simp] theorem State.idle_resetIn (s : State) : (s.idle).resetIn = s.resetIn := rfl
@[simp] theorem State.idle_rsp (s : State) : (s.idle).rsp = none := rfl

@[simp] theorem State.holdReset_toBlock (s : State) : (s.holdReset).toBlock = s.toBlock := rfl
@[simp] theorem State.holdReset_regTable (s : State) : (s.holdReset).regTable = s.regTable := rfl
@[simp] theorem State.holdReset_dispatchTable (s : State) : (s.holdReset).dispatchTable = s.dispatchTable := rfl
@[simp] theorem State.holdReset_request (s : State) : (s.holdReset).request = none := rfl
@[simp] theorem State.holdReset_resetIn (s : State) : (s.holdReset).resetIn = s.resetIn := rfl
@[simp] theorem State.holdReset_rsp (s : State) : (s.holdReset).rsp = none := rfl

@[simp] theorem State.offer_toBlock (s : State) (o : Option Request) : (s.offer o).toBlock = s.toBlock := rfl
@[simp] theorem State.offer_regTable (s : State) (o : Option Request) : (s.offer o).regTable = s.regTable := rfl
@[simp] theorem State.offer_dispatchTable (s : State) (o : Option Request) : (s.offer o).dispatchTable = s.dispatchTable := rfl
@[simp] theorem State.offer_request (s : State) (o : Option Request) : (s.offer o).request = o := rfl
@[simp] theorem State.offer_resetIn (s : State) (o : Option Request) : (s.offer o).resetIn = s.resetIn := rfl
@[simp] theorem State.offer_rsp (s : State) (o : Option Request) : (s.offer o).rsp = s.rsp := rfl

@[simp] theorem State.setReset_toBlock (s : State) (b : Bool) : (s.setReset b).toBlock = s.toBlock := rfl
@[simp] theorem State.setReset_regTable (s : State) (b : Bool) : (s.setReset b).regTable = s.regTable := rfl
@[simp] theorem State.setReset_dispatchTable (s : State) (b : Bool) : (s.setReset b).dispatchTable = s.dispatchTable := rfl
@[simp] theorem State.setReset_request (s : State) (b : Bool) : (s.setReset b).request = s.request := rfl
@[simp] theorem State.setReset_resetIn (s : State) (b : Bool) : (s.setReset b).resetIn = b := rfl
@[simp] theorem State.setReset_rsp (s : State) (b : Bool) : (s.setReset b).rsp = s.rsp := rfl

@[simp] theorem State.reset_regTable : State.reset.regTable = registerRom := rfl
@[simp] theorem State.reset_dispatchTable : State.reset.dispatchTable = dispatchRom := rfl
@[simp] theorem State.reset_request : State.reset.request = none := rfl
@[simp] theorem State.reset_resetIn : State.reset.resetIn = false := rfl
@[simp] theorem State.reset_rsp : State.reset.rsp = none := rfl

/-- The tables are built exactly when both hold their constants. -/
theorem State.tablesBuilt_iff (s : State) :
    s.tablesBuilt = true ↔ s.regTable = registerRom ∧ s.dispatchTable = dispatchRom := by
  simp [State.tablesBuilt]

end Sys2Proof.Machine
end

