-- ==== Sys2Proof/Laws/Step.lean ====
section
/-! SUPPORT. What an instruction, a transaction and a step can do, said once. -/

namespace Sys2Proof.Machine

/-- Every instruction presents what its encoder answers to its mnemonic and operands. -/
theorem exec_eq_present (i : Instr) (s : State) :
    exec i s =
      .next (s.present (runEncoder (mnemonicOf i).format s.regTable ((mnemonicOf i).token :: operandsOf i))) := by
  cases i <;> rfl

/-- An encoder reads an instruction only from a token list that is its mnemonic and its operands. -/
theorem decodeAt_instr {f : FormatClass} {tokens : List Token} {i : Instr} (h : decodeAt f tokens = .instr i) :
    tokens = (mnemonicOf i).token :: operandsOf i ∧ (mnemonicOf i).format = f := by
  have format_of : ∀ mn ∈ f.mnemonics, mn.format = f := by cases f <;> decide
  have split_instr : ∀ (mn : Mnemonic) (ops : List Token),
      mnemonicOf (mn.instr ops) = mn ∧ operandsOf (mn.instr ops) = ops := by
    intro mn ops; cases mn <;> exact ⟨rfl, rfl⟩
  match tokens with
  | [] => simp [decodeAt] at h
  | m :: ops =>
    simp only [decodeAt] at h
    split at h
    · rename_i mn hf
      injection h with h
      subst h
      have hm := List.find?_some hf
      simp only [beq_iff_eq] at hm
      exact ⟨by rw [(split_instr mn ops).1, (split_instr mn ops).2, hm],
        by rw [(split_instr mn ops).1]; exact format_of mn (List.mem_of_find?_eq_some hf)⟩
    · simp at h

/-- Serving a request presents one result and changes nothing else. -/
theorem serve_presents (r : Request) (s : State) : ∃ res, serve r s = .next (s.present res) := by
  unfold serve
  split
  · exact ⟨_, exec_eq_present _ s⟩
  · exact ⟨_, rfl⟩
  · exact ⟨_, rfl⟩
  · exact ⟨_, rfl⟩

/-! What a step does, case by case. -/

theorem step_underReset {s : State} (h : s.resetIn = true) : step s = .next s.holdReset := by simp [step, h]

theorem step_notBuilt {s : State} (h : s.resetIn = false) (hb : s.tablesBuilt = false) : step s = .next s.idle := by
  simp [step, transact, h, hb]

theorem step_noRequest {s : State} (h : s.resetIn = false) (hq : s.request = none) : step s = .next s.idle := by
  simp [step, transact, h, hq]

theorem step_serves {s : State} {r : Request} (h : s.resetIn = false) (hb : s.tablesBuilt = true)
    (hq : s.request = some r) : step s = serve r s.accept := by simp [step, transact, h, hb, hq]

/-- All a step can do: hold under reset, wait for complete tables, idle, or answer the request presented. -/
theorem step_cases (s : State) :
    (s.resetIn = true ∧ step s = .next s.holdReset) ∨
    (s.resetIn = false ∧ s.tablesBuilt = false ∧ step s = .next s.idle) ∨
    (s.resetIn = false ∧ s.tablesBuilt = true ∧ s.request = none ∧ step s = .next s.idle) ∨
    (∃ r, s.resetIn = false ∧ s.tablesBuilt = true ∧ s.request = some r ∧ step s = serve r s.accept) := by
  cases hr : s.resetIn with
  | true => exact .inl ⟨rfl, step_underReset hr⟩
  | false =>
    cases hb : s.tablesBuilt with
    | false => exact .inr (.inl ⟨rfl, rfl, step_notBuilt hr hb⟩)
    | true =>
      cases hq : s.request with
      | none => exact .inr (.inr (.inl ⟨rfl, rfl, rfl, step_noRequest hr hq⟩))
      | some r => exact .inr (.inr (.inr ⟨r, rfl, rfl, rfl, step_serves hr hb hq⟩))

end Sys2Proof.Machine
end

