-- ==== Sys2Proof/Laws/Words.lean ====
section
/-! SUPPORT. The word layouts bit by bit: what a row's mask leaves of a word, and a word as its row's match value with
the operand bits that `encode` places. -/

namespace Sys2Proof.Machine

/-! ## What the mask leaves -/

theorem rrWord_and_mask (f7 : BitVec 7) (f3 : BitVec 3) (rs2 rs1 rd : BitVec 5) :
    rrWord f7 rs2 rs1 f3 rd &&& 0xFE00707F#32 = rrWord f7 0 0 f3 0 := by
  apply BitVec.eq_of_getLsbD_eq
  intro i hi
  simp only [rrWord, BitVec.getLsbD_append, BitVec.getLsbD_and]
  interval_cases i <;> simp

theorem shiftWord_and_mask (shamt rs1 rd : BitVec 5) : shiftWord shamt rs1 rd &&& 0xFE00707F#32 = 0x00005013#32 := by
  apply BitVec.eq_of_getLsbD_eq
  intro i hi
  simp only [shiftWord, BitVec.getLsbD_append, BitVec.getLsbD_and]
  interval_cases i <;> simp

theorem riWord_and_mask (v : BitVec 12) (f3 : BitVec 3) (rs1 rd : BitVec 5) :
    riWord v rs1 f3 rd &&& 0x0000707F#32 = riWord 0 0 f3 0 := by
  apply BitVec.eq_of_getLsbD_eq
  intro i hi
  simp only [riWord, BitVec.getLsbD_append, BitVec.getLsbD_and]
  interval_cases i <;> simp

theorem loadWord_and_mask (v : BitVec 12) (f3 : BitVec 3) (rs1 rd : BitVec 5) :
    loadWord v rs1 f3 rd &&& 0x0000707F#32 = loadWord 0 0 f3 0 := by
  apply BitVec.eq_of_getLsbD_eq
  intro i hi
  simp only [loadWord, BitVec.getLsbD_append, BitVec.getLsbD_and]
  interval_cases i <;> simp

theorem storeWord_and_mask (v : BitVec 12) (rs2 rs1 : BitVec 5) :
    storeWord v rs2 rs1 &&& 0x0000707F#32 = 0x00002023#32 := by
  apply BitVec.eq_of_getLsbD_eq
  intro i hi
  simp only [storeWord, BitVec.getLsbD_append, BitVec.getLsbD_and]
  interval_cases i <;> simp

theorem branchWord_and_mask (v : BitVec 12) (f3 : BitVec 3) (rs2 rs1 : BitVec 5) :
    branchWord v rs2 rs1 f3 &&& 0x0000707F#32 = branchWord 0 0 0 f3 := by
  apply BitVec.eq_of_getLsbD_eq
  intro i hi
  simp only [branchWord, branchHi7, branchLo5, BitVec.getLsbD_append, BitVec.getLsbD_and]
  interval_cases i <;> simp

theorem jumpWord_and_mask (v : BitVec 20) (rd : BitVec 5) : jumpWord v rd &&& 0x0000007F#32 = 0x0000006F#32 := by
  apply BitVec.eq_of_getLsbD_eq
  intro i hi
  simp only [jumpWord, jumpHi20, BitVec.getLsbD_append, BitVec.getLsbD_and]
  interval_cases i <;> simp

/-! ## A word as its constant bits with its operand bits -/

/-- A low bit of a two's-complement field is that bit of the wider one. -/
theorem ofInt_getLsbD_low (v : Int) {n k : Nat} (hn : n ≤ 32) (hk : k < n) :
    (BitVec.ofInt 32 v).getLsbD k = (BitVec.ofInt n v).getLsbD k := by
  have h : BitVec.ofInt n v = (BitVec.ofInt 32 v).setWidth n := by
    apply BitVec.eq_of_toNat_eq
    simp [BitVec.toNat_ofInt]
    have hd : (2 : Int) ^ n ∣ 4294967296 := by
      have h32 : (4294967296 : Int) = 2 ^ 32 := by norm_num
      rw [h32]
      exact pow_dvd_pow 2 hn
    have hm := Int.emod_emod_of_dvd v hd
    have hp : (0 : Int) < 2 ^ n := by positivity
    apply Int.ofNat.inj
    simp only [Int.ofNat_eq_natCast, Int.natCast_emod]
    rw [Int.toNat_of_nonneg (Int.emod_nonneg _ (by omega)), Int.toNat_of_nonneg (Int.emod_nonneg _ (by omega))]
    push_cast
    rw [hm]
  rw [h]
  simp [hk]

theorem rrWord_split (f7 : BitVec 7) (f3 : BitVec 3) (rd rs1 rs2 : Fin 32) :
    rrWord f7 0 0 f3 0 ||| (regAt rs2 20 ||| regAt rs1 15 ||| regAt rd 7) =
      rrWord f7 (u5 rs2) (u5 rs1) f3 (u5 rd) := by
  simp only [regAt]
  apply BitVec.eq_of_getLsbD_eq
  intro i hi
  simp only [rrWord, BitVec.getLsbD_or, BitVec.getLsbD_append]
  interval_cases i <;> simp

theorem riWord_split (f3 : BitVec 3) (rd rs1 : Fin 32) (v : Int) :
    riWord 0 0 f3 0 ||| (regAt rd 7 ||| regAt rs1 15 ||| immAt (BitVec.ofInt 32 v) 0 12 20) =
      riWord (tc 12 v) (u5 rs1) f3 (u5 rd) := by
  simp only [regAt, riWord, immAt, tc]
  apply BitVec.eq_of_getLsbD_eq
  intro i hi
  have key := fun k hk => ofInt_getLsbD_low v (n := 12) (k := k) (by omega) hk
  simp only [BitVec.getLsbD_or, BitVec.getLsbD_append, BitVec.getLsbD_shiftLeft, BitVec.getLsbD_setWidth,
    BitVec.getLsbD_extractLsb']
  interval_cases i <;> simp [-BitVec.getLsbD_eq_getElem, key]

theorem loadWord_split (f3 : BitVec 3) (rd rs1 : Fin 32) (v : Int) :
    loadWord 0 0 f3 0 ||| (regAt rd 7 ||| regAt rs1 15 ||| immAt (BitVec.ofInt 32 v) 0 12 20) =
      loadWord (tc 12 v) (u5 rs1) f3 (u5 rd) := by
  simp only [regAt, loadWord, immAt, tc]
  apply BitVec.eq_of_getLsbD_eq
  intro i hi
  have key := fun k hk => ofInt_getLsbD_low v (n := 12) (k := k) (by omega) hk
  simp only [BitVec.getLsbD_or, BitVec.getLsbD_append, BitVec.getLsbD_shiftLeft, BitVec.getLsbD_setWidth,
    BitVec.getLsbD_extractLsb']
  interval_cases i <;> simp [-BitVec.getLsbD_eq_getElem, key]

theorem shiftWord_split (rd rs1 : Fin 32) {v : Int} (hv : 0 ≤ v) :
    (0x00005013 : Word) ||| (regAt rd 7 ||| regAt rs1 15 ||| immAt (BitVec.ofInt 32 v) 0 5 20) =
      shiftWord (u5 v.toNat) (u5 rs1) (u5 rd) := by
  have hu : u5 v.toNat = BitVec.ofInt 5 v := by
    obtain ⟨n, rfl⟩ := Int.eq_ofNat_of_zero_le hv
    simp [u5]
  simp only [regAt, shiftWord, immAt, hu]
  apply BitVec.eq_of_getLsbD_eq
  intro i hi
  have key := fun k hk => ofInt_getLsbD_low v (n := 5) (k := k) (by omega) hk
  simp only [BitVec.getLsbD_or, BitVec.getLsbD_append, BitVec.getLsbD_shiftLeft, BitVec.getLsbD_setWidth,
    BitVec.getLsbD_extractLsb']
  interval_cases i <;> simp [-BitVec.getLsbD_eq_getElem, key]

theorem storeWord_split (rs2 rs1 : Fin 32) (v : Int) :
    (0x00002023 : Word) ||| (regAt rs2 20 ||| regAt rs1 15 |||
      (immAt (BitVec.ofInt 32 v) 5 7 25 ||| immAt (BitVec.ofInt 32 v) 0 5 7)) =
      storeWord (tc 12 v) (u5 rs2) (u5 rs1) := by
  simp only [regAt, storeWord, immAt, tc]
  apply BitVec.eq_of_getLsbD_eq
  intro i hi
  have key := fun k hk => ofInt_getLsbD_low v (n := 12) (k := k) (by omega) hk
  simp only [BitVec.getLsbD_or, BitVec.getLsbD_append, BitVec.getLsbD_shiftLeft, BitVec.getLsbD_setWidth,
    BitVec.getLsbD_extractLsb']
  interval_cases i <;> simp [-BitVec.getLsbD_eq_getElem, key]

theorem branchWord_split (f3 : BitVec 3) (rs1 rs2 : Fin 32) (v : Int) :
    branchWord 0 0 0 f3 ||| (regAt rs1 15 ||| regAt rs2 20 ||| (immAt (BitVec.ofInt 32 v) 11 1 31 |||
      immAt (BitVec.ofInt 32 v) 4 6 25 ||| immAt (BitVec.ofInt 32 v) 10 1 11 ||| immAt (BitVec.ofInt 32 v) 0 4 7)) =
      branchWord (tc 12 v) (u5 rs2) (u5 rs1) f3 := by
  simp only [regAt, branchWord, branchHi7, branchLo5, immAt, tc]
  apply BitVec.eq_of_getLsbD_eq
  intro i hi
  have key := fun k hk => ofInt_getLsbD_low v (n := 12) (k := k) (by omega) hk
  simp only [BitVec.getLsbD_or, BitVec.getLsbD_append, BitVec.getLsbD_shiftLeft, BitVec.getLsbD_setWidth,
    BitVec.getLsbD_extractLsb']
  interval_cases i <;> simp [-BitVec.getLsbD_eq_getElem, key]

theorem jumpWord_split (rd : Fin 32) (v : Int) :
    (0x0000006F : Word) ||| (regAt rd 7 ||| immAt (BitVec.ofInt 32 v) 19 1 31 ||| immAt (BitVec.ofInt 32 v) 0 10 21 |||
      immAt (BitVec.ofInt 32 v) 10 1 20 ||| immAt (BitVec.ofInt 32 v) 11 8 12) = jumpWord (tc 20 v) (u5 rd) := by
  simp only [regAt, jumpWord, jumpHi20, immAt, tc]
  apply BitVec.eq_of_getLsbD_eq
  intro i hi
  have key := fun k hk => ofInt_getLsbD_low v (n := 20) (k := k) (by omega) hk
  simp only [BitVec.getLsbD_or, BitVec.getLsbD_append, BitVec.getLsbD_shiftLeft, BitVec.getLsbD_setWidth,
    BitVec.getLsbD_extractLsb']
  interval_cases i <;> simp [-BitVec.getLsbD_eq_getElem, key]

/-! ## A word from its own fields -/

theorem regAt_toFin (r : BitVec 5) (lsb : Nat) : regAt r.toFin lsb = r.setWidth 32 <<< lsb := by
  show (u5 r.toNat).setWidth 32 <<< lsb = _
  rw [u5_toNat]

theorem rebuild_rr (w : Word) :
    w &&& 0xFE00707F#32 ||| (regAt (rs2Field w).toFin 20 ||| regAt (rs1Field w).toFin 15 ||| regAt (rdField w).toFin 7) =
      w := by
  simp only [regAt_toFin]
  apply BitVec.eq_of_getLsbD_eq
  intro i hi
  simp only [rs2Field, rs1Field, rdField, BitVec.getLsbD_or, BitVec.getLsbD_and]
  interval_cases i <;> simp

theorem rebuild_imm (w : Word) :
    w &&& 0x0000707F#32 ||| (regAt (rdField w).toFin 7 ||| regAt (rs1Field w).toFin 15 |||
      immAt (BitVec.ofInt 32 (immField w).toInt) 0 12 20) = w := by
  change w &&& 0x0000707F#32 ||| (regAt (rdField w).toFin 7 ||| regAt (rs1Field w).toFin 15 |||
      immAt ((immField w).signExtend 32) 0 12 20) = w
  simp only [regAt_toFin, immAt]
  apply BitVec.eq_of_getLsbD_eq
  intro i hi
  simp only [immField, rs1Field, rdField, BitVec.getLsbD_or, BitVec.getLsbD_and]
  interval_cases i <;> simp [BitVec.getElem_signExtend]

theorem rebuild_shift (w : Word) :
    w &&& 0xFE00707F#32 ||| (regAt (rdField w).toFin 7 ||| regAt (rs1Field w).toFin 15 |||
      immAt (BitVec.ofInt 32 ((rs2Field w).toNat : Int)) 0 5 20) = w := by
  have h : BitVec.ofInt 32 ((rs2Field w).toNat : Int) = (rs2Field w).setWidth 32 := by
    apply BitVec.eq_of_toNat_eq; simp
  rw [h]
  simp only [regAt_toFin, immAt]
  apply BitVec.eq_of_getLsbD_eq
  intro i hi
  simp only [rs2Field, rs1Field, rdField, BitVec.getLsbD_or, BitVec.getLsbD_and]
  interval_cases i <;> simp

theorem rebuild_store (w : Word) :
    w &&& 0x0000707F#32 ||| (regAt (rs2Field w).toFin 20 ||| regAt (rs1Field w).toFin 15 |||
      (immAt (BitVec.ofInt 32 (storeField w).toInt) 5 7 25 ||| immAt (BitVec.ofInt 32 (storeField w).toInt) 0 5 7)) =
      w := by
  change w &&& 0x0000707F#32 ||| (regAt (rs2Field w).toFin 20 ||| regAt (rs1Field w).toFin 15 |||
      (immAt ((storeField w).signExtend 32) 5 7 25 ||| immAt ((storeField w).signExtend 32) 0 5 7)) = w
  simp only [regAt_toFin, immAt]
  apply BitVec.eq_of_getLsbD_eq
  intro i hi
  simp only [storeField, rs1Field, rs2Field, BitVec.getLsbD_or, BitVec.getLsbD_and, BitVec.getLsbD_shiftLeft,
    BitVec.getLsbD_setWidth, BitVec.getLsbD_extractLsb', BitVec.getLsbD_signExtend, BitVec.getLsbD_append]
  interval_cases i <;> simp

theorem rebuild_branch (w : Word) :
    w &&& 0x0000707F#32 ||| (regAt (rs1Field w).toFin 15 ||| regAt (rs2Field w).toFin 20 |||
      (immAt (BitVec.ofInt 32 (branchField w).toInt) 11 1 31 ||| immAt (BitVec.ofInt 32 (branchField w).toInt) 4 6 25 |||
        immAt (BitVec.ofInt 32 (branchField w).toInt) 10 1 11 |||
        immAt (BitVec.ofInt 32 (branchField w).toInt) 0 4 7)) = w := by
  change w &&& 0x0000707F#32 ||| (regAt (rs1Field w).toFin 15 ||| regAt (rs2Field w).toFin 20 |||
      (immAt ((branchField w).signExtend 32) 11 1 31 ||| immAt ((branchField w).signExtend 32) 4 6 25 |||
        immAt ((branchField w).signExtend 32) 10 1 11 ||| immAt ((branchField w).signExtend 32) 0 4 7)) = w
  simp only [regAt_toFin, immAt]
  apply BitVec.eq_of_getLsbD_eq
  intro i hi
  simp only [branchField, rs1Field, rs2Field, BitVec.getLsbD_or, BitVec.getLsbD_and, BitVec.getLsbD_shiftLeft,
    BitVec.getLsbD_setWidth, BitVec.getLsbD_extractLsb', BitVec.getLsbD_signExtend, BitVec.getLsbD_append]
  interval_cases i <;> simp

theorem rebuild_jump (w : Word) :
    w &&& 0x0000007F#32 ||| (regAt (rdField w).toFin 7 ||| immAt (BitVec.ofInt 32 (jumpField w).toInt) 19 1 31 |||
      immAt (BitVec.ofInt 32 (jumpField w).toInt) 0 10 21 ||| immAt (BitVec.ofInt 32 (jumpField w).toInt) 10 1 20 |||
      immAt (BitVec.ofInt 32 (jumpField w).toInt) 11 8 12) = w := by
  change w &&& 0x0000007F#32 ||| (regAt (rdField w).toFin 7 ||| immAt ((jumpField w).signExtend 32) 19 1 31 |||
      immAt ((jumpField w).signExtend 32) 0 10 21 ||| immAt ((jumpField w).signExtend 32) 10 1 20 |||
      immAt ((jumpField w).signExtend 32) 11 8 12) = w
  simp only [regAt_toFin, immAt]
  apply BitVec.eq_of_getLsbD_eq
  intro i hi
  simp only [jumpField, rdField, BitVec.getLsbD_or, BitVec.getLsbD_and, BitVec.getLsbD_shiftLeft,
    BitVec.getLsbD_setWidth, BitVec.getLsbD_extractLsb', BitVec.getLsbD_signExtend, BitVec.getLsbD_append]
  interval_cases i <;> simp

/-! ## The fields of a layout -/

theorem rrWord_rdField (f7 : BitVec 7) (f3 : BitVec 3) (rs2 rs1 rd : BitVec 5) : rdField (rrWord f7 rs2 rs1 f3 rd) = rd := by
  apply BitVec.eq_of_getLsbD_eq
  intro i hi
  simp only [rdField, rrWord, BitVec.getLsbD_extractLsb', BitVec.getLsbD_append]
  interval_cases i <;> simp

theorem rrWord_rs1Field (f7 : BitVec 7) (f3 : BitVec 3) (rs2 rs1 rd : BitVec 5) : rs1Field (rrWord f7 rs2 rs1 f3 rd) = rs1 := by
  apply BitVec.eq_of_getLsbD_eq
  intro i hi
  simp only [rs1Field, rrWord, BitVec.getLsbD_extractLsb', BitVec.getLsbD_append]
  interval_cases i <;> simp

theorem rrWord_rs2Field (f7 : BitVec 7) (f3 : BitVec 3) (rs2 rs1 rd : BitVec 5) : rs2Field (rrWord f7 rs2 rs1 f3 rd) = rs2 := by
  apply BitVec.eq_of_getLsbD_eq
  intro i hi
  simp only [rs2Field, rrWord, BitVec.getLsbD_extractLsb', BitVec.getLsbD_append]
  interval_cases i <;> simp

theorem riWord_rdField (v : BitVec 12) (f3 : BitVec 3) (rs1 rd : BitVec 5) : rdField (riWord v rs1 f3 rd) = rd := by
  apply BitVec.eq_of_getLsbD_eq
  intro i hi
  simp only [rdField, riWord, BitVec.getLsbD_extractLsb', BitVec.getLsbD_append]
  interval_cases i <;> simp

theorem riWord_rs1Field (v : BitVec 12) (f3 : BitVec 3) (rs1 rd : BitVec 5) : rs1Field (riWord v rs1 f3 rd) = rs1 := by
  apply BitVec.eq_of_getLsbD_eq
  intro i hi
  simp only [rs1Field, riWord, BitVec.getLsbD_extractLsb', BitVec.getLsbD_append]
  interval_cases i <;> simp

theorem riWord_immField (v : BitVec 12) (f3 : BitVec 3) (rs1 rd : BitVec 5) : immField (riWord v rs1 f3 rd) = v := by
  apply BitVec.eq_of_getLsbD_eq
  intro i hi
  simp only [immField, riWord, BitVec.getLsbD_extractLsb', BitVec.getLsbD_append]
  interval_cases i <;> simp

theorem loadWord_rdField (v : BitVec 12) (f3 : BitVec 3) (rs1 rd : BitVec 5) : rdField (loadWord v rs1 f3 rd) = rd := by
  apply BitVec.eq_of_getLsbD_eq
  intro i hi
  simp only [rdField, loadWord, BitVec.getLsbD_extractLsb', BitVec.getLsbD_append]
  interval_cases i <;> simp

theorem loadWord_rs1Field (v : BitVec 12) (f3 : BitVec 3) (rs1 rd : BitVec 5) : rs1Field (loadWord v rs1 f3 rd) = rs1 := by
  apply BitVec.eq_of_getLsbD_eq
  intro i hi
  simp only [rs1Field, loadWord, BitVec.getLsbD_extractLsb', BitVec.getLsbD_append]
  interval_cases i <;> simp

theorem loadWord_immField (v : BitVec 12) (f3 : BitVec 3) (rs1 rd : BitVec 5) : immField (loadWord v rs1 f3 rd) = v := by
  apply BitVec.eq_of_getLsbD_eq
  intro i hi
  simp only [immField, loadWord, BitVec.getLsbD_extractLsb', BitVec.getLsbD_append]
  interval_cases i <;> simp

theorem shiftWord_rdField (shamt rs1 rd : BitVec 5) : rdField (shiftWord shamt rs1 rd) = rd := by
  apply BitVec.eq_of_getLsbD_eq
  intro i hi
  simp only [rdField, shiftWord, BitVec.getLsbD_extractLsb', BitVec.getLsbD_append]
  interval_cases i <;> simp

theorem shiftWord_rs1Field (shamt rs1 rd : BitVec 5) : rs1Field (shiftWord shamt rs1 rd) = rs1 := by
  apply BitVec.eq_of_getLsbD_eq
  intro i hi
  simp only [rs1Field, shiftWord, BitVec.getLsbD_extractLsb', BitVec.getLsbD_append]
  interval_cases i <;> simp

theorem shiftWord_rs2Field (shamt rs1 rd : BitVec 5) : rs2Field (shiftWord shamt rs1 rd) = shamt := by
  apply BitVec.eq_of_getLsbD_eq
  intro i hi
  simp only [rs2Field, shiftWord, BitVec.getLsbD_extractLsb', BitVec.getLsbD_append]
  interval_cases i <;> simp

theorem storeWord_rs2Field (v : BitVec 12) (rs2 rs1 : BitVec 5) : rs2Field (storeWord v rs2 rs1) = rs2 := by
  apply BitVec.eq_of_getLsbD_eq
  intro i hi
  simp only [rs2Field, storeWord, BitVec.getLsbD_extractLsb', BitVec.getLsbD_append]
  interval_cases i <;> simp

theorem storeWord_rs1Field (v : BitVec 12) (rs2 rs1 : BitVec 5) : rs1Field (storeWord v rs2 rs1) = rs1 := by
  apply BitVec.eq_of_getLsbD_eq
  intro i hi
  simp only [rs1Field, storeWord, BitVec.getLsbD_extractLsb', BitVec.getLsbD_append]
  interval_cases i <;> simp

theorem storeWord_storeField (v : BitVec 12) (rs2 rs1 : BitVec 5) : storeField (storeWord v rs2 rs1) = v := by
  apply BitVec.eq_of_getLsbD_eq
  intro i hi
  simp only [storeField, storeWord, BitVec.getLsbD_extractLsb', BitVec.getLsbD_append]
  interval_cases i <;> simp

theorem branchWord_rs2Field (v : BitVec 12) (f3 : BitVec 3) (rs2 rs1 : BitVec 5) : rs2Field (branchWord v rs2 rs1 f3) = rs2 := by
  apply BitVec.eq_of_getLsbD_eq
  intro i hi
  simp only [rs2Field, branchWord, branchHi7, branchLo5, BitVec.getLsbD_extractLsb', BitVec.getLsbD_append]
  interval_cases i <;> simp

theorem branchWord_rs1Field (v : BitVec 12) (f3 : BitVec 3) (rs2 rs1 : BitVec 5) : rs1Field (branchWord v rs2 rs1 f3) = rs1 := by
  apply BitVec.eq_of_getLsbD_eq
  intro i hi
  simp only [rs1Field, branchWord, branchHi7, branchLo5, BitVec.getLsbD_extractLsb', BitVec.getLsbD_append]
  interval_cases i <;> simp

theorem branchWord_branchField (v : BitVec 12) (f3 : BitVec 3) (rs2 rs1 : BitVec 5) : branchField (branchWord v rs2 rs1 f3) = v := by
  apply BitVec.eq_of_getLsbD_eq
  intro i hi
  simp only [branchField, branchWord, branchHi7, branchLo5, BitVec.getLsbD_extractLsb', BitVec.getLsbD_append]
  interval_cases i <;> simp

theorem jumpWord_rdField (v : BitVec 20) (rd : BitVec 5) : rdField (jumpWord v rd) = rd := by
  apply BitVec.eq_of_getLsbD_eq
  intro i hi
  simp only [rdField, jumpWord, jumpHi20, BitVec.getLsbD_extractLsb', BitVec.getLsbD_append]
  interval_cases i <;> simp

theorem jumpWord_jumpField (v : BitVec 20) (rd : BitVec 5) : jumpField (jumpWord v rd) = v := by
  apply BitVec.eq_of_getLsbD_eq
  intro i hi
  simp only [jumpField, jumpWord, jumpHi20, BitVec.getLsbD_extractLsb', BitVec.getLsbD_append]
  interval_cases i <;> simp

/-! ## The operand bits of a mnemonic -/

theorem operandBits_rr {mn : Mnemonic} (h : mn.format = .registerRegister) (ops : List Token) :
    operandBits mn ops = fieldsRR ops := by cases mn <;> simp_all [operandBits, Mnemonic.format]

theorem operandBits_addi (ops : List Token) :
    operandBits .addi ops = fieldsRRI 7 15 (fun _ => true) (fun v => immAt v 0 12 20) ops := rfl

theorem operandBits_andi (ops : List Token) :
    operandBits .andi ops = fieldsRRI 7 15 (fun _ => true) (fun v => immAt v 0 12 20) ops := rfl

theorem operandBits_srli (ops : List Token) :
    operandBits .srli ops = fieldsRRI 7 15 (inRange 0 31) (fun v => immAt v 0 5 20) ops := rfl

theorem operandBits_load {mn : Mnemonic} (h : mn.format = .load) (ops : List Token) :
    operandBits mn ops = fieldsRRI 7 15 (inRange lsImmMin lsImmMax) (fun v => immAt v 0 12 20) ops := by
  cases mn <;> simp_all [operandBits, Mnemonic.format]

theorem operandBits_store {mn : Mnemonic} (h : mn.format = .store) (ops : List Token) :
    operandBits mn ops =
      fieldsRRI 20 15 (inRange lsImmMin lsImmMax) (fun v => immAt v 5 7 25 ||| immAt v 0 5 7) ops := by
  cases mn <;> simp_all [operandBits, Mnemonic.format]

theorem operandBits_branch {mn : Mnemonic} (h : mn.format = .branch) (ops : List Token) :
    operandBits mn ops =
      fieldsRRI 15 20 (fun _ => true)
        (fun v => immAt v 11 1 31 ||| immAt v 4 6 25 ||| immAt v 10 1 11 ||| immAt v 0 4 7) ops := by
  cases mn <;> simp_all [operandBits, Mnemonic.format]

theorem operandBits_jal (ops : List Token) : operandBits .jal ops = fieldsJump ops := rfl

/-- Where a RegisterRegister instruction has operand bits. -/
theorem fieldsRR_some {ops : List Token} {bits : Word} (h : fieldsRR ops = some bits) :
    ∃ d a b rd rs1 rs2, ops = [d, a, b] ∧ regResolve registerRom d = some rd ∧ regResolve registerRom a = some rs1 ∧
      regResolve registerRom b = some rs2 ∧ bits = (regAt rs2 20 ||| regAt rs1 15 ||| regAt rd 7) := by
  unfold fieldsRR at h
  repeat' split at h
  all_goals simp_all

/-- Where an instruction with two registers and an immediate has operand bits. -/
theorem fieldsRRI_some {l1 l2 : Nat} {ok : Int → Bool} {place : Word → Word} {ops : List Token} {bits : Word}
    (h : fieldsRRI l1 l2 ok place ops = some bits) :
    ∃ d a t r1 r2 v, ops = [d, a, t] ∧ regResolve registerRom d = some r1 ∧ regResolve registerRom a = some r2 ∧
      parseImm t = some v ∧ ok v = true ∧ bits = (regAt r1 l1 ||| regAt r2 l2 ||| place (BitVec.ofInt 32 v)) := by
  unfold fieldsRRI at h
  repeat' split at h
  all_goals simp_all

/-- Where a Jump instruction has operand bits. -/
theorem fieldsJump_some {ops : List Token} {bits : Word} (h : fieldsJump ops = some bits) :
    ∃ d t rd v, ops = [d, t] ∧ regResolve registerRom d = some rd ∧ parseImm t = some v ∧
      inRange jalHMin jalHMax (half v) = true ∧
      bits = (regAt rd 7 ||| immAt (BitVec.ofInt 32 (half v)) 19 1 31 ||| immAt (BitVec.ofInt 32 (half v)) 0 10 21 |||
        immAt (BitVec.ofInt 32 (half v)) 10 1 20 ||| immAt (BitVec.ofInt 32 (half v)) 11 8 12) := by
  unfold fieldsJump at h
  repeat' split at h
  all_goals simp_all

/-! ## Mnemonics -/

@[simp] theorem mnemonicOf_instr (mn : Mnemonic) (ops : List Token) : mnemonicOf (mn.instr ops) = mn := by
  cases mn <;> rfl

@[simp] theorem operandsOf_instr (mn : Mnemonic) (ops : List Token) : operandsOf (mn.instr ops) = ops := by
  cases mn <;> rfl

/-- An encoder finds its own mnemonics. -/
theorem decodeAt_own (mn : Mnemonic) (ops : List Token) :
    decodeAt mn.format (mn.token :: ops) = .instr (mn.instr ops) := by
  have h : mn.format.mnemonics.find? (fun x => x.token == mn.token) = some mn := by cases mn <;> decide
  simp [decodeAt, h]

end Sys2Proof.Machine
end

