-- ==== Sys2Proof/Tests/Slice0.lean ====
section
/-! SUPPORT. Tests. Expected values are those of spec/95_test_vectors.md (its section is named at each group) or are
written out from the layouts of spec/30_encoding.md. The witnesses at the end show that the hypotheses of every
statement are met. -/

namespace Sys2Proof.Tests

open Sys2Proof Sys2Proof.Machine

/-! Register tokens used below. -/

def x0 : Token := tokenOf ['x', '0']
def x1 : Token := tokenOf ['x', '1']
def x2 : Token := tokenOf ['x', '2']
def x3 : Token := tokenOf ['x', '3']
def x4 : Token := tokenOf ['x', '4']
def x10 : Token := tokenOf ['x', '1', '0']
def x31 : Token := tokenOf ['x', '3', '1']
def x99 : Token := tokenOf ['x', '9', '9']

/-- The machine after reset with a request presented. -/
def offering (r : Request) : State := State.reset.offer (some r)

/-- The result presented by the step that serves one request. -/
def answer (e : Entry) (tokens : List Token) : List (Option Result) := session [some ⟨e, tokens⟩] State.reset

/-- The result an outcome presents, if it is a next state. -/
def resultIn : StepOutcome → Option Result
  | .next t => t.rsp
  | .fault _ => none
  | .refused _ => none

/-! ## WellFormed: an ill-formed term for each check, which the check refuses -/

theorem test_flaw_count : (Instr.add [x1, x2]).flaw = some .operandCount := by decide

theorem test_flaw_count_jump : (Instr.jal [x1, x2, tokenOf ['8']]).flaw = some .operandCount := by decide

theorem test_flaw_register : (Instr.sub [x1, tokenOf ['x', '3', '2'], x3]).flaw = some .registerName := by decide

theorem test_flaw_immediate_text : (Instr.addi [x1, x2, tokenOf ['0', 'x', '1', '0']]).flaw = some .immediateText := by decide

theorem test_flaw_load_range : (Instr.lw [x1, x2, tokenOf ['2', '0', '4', '8']]).flaw = some .immediateRange :=
    by decide

theorem test_flaw_store_range : (Instr.sw [x3, x4, tokenOf ['-', '2', '0', '4', '9']]).flaw = some .immediateRange := by decide

theorem test_flaw_jump_range : (Instr.jal [x1, tokenOf ['1', '0', '4', '8', '5', '7', '6']]).flaw = some .immediateRange := by decide

theorem test_flaw_shift_range : (Instr.srli [x2, x1, tokenOf ['3', '2']]).flaw = some .shiftRange := by decide

theorem test_ill_formed_is_refused : (Instr.addi [x1, x99, tokenOf ['a', 'b', 'c']]).wellFormed = false := by decide

theorem test_well_formed : (Instr.addi [x1, x2, tokenOf ['5', '0', '0', '0']]).wellFormed = true := by decide

/-! ## Decoding: every constructor by a word written out from the spec's layouts (parts 2.4 to 2.9) -/

theorem test_decode_add :
    decodeWord 0b00000000001100010000000010110011#32 = .ok (.add [x1, x2, x3]) := by decide

theorem test_decode_sub :
    decodeWord 0b01000001111010100000010100110011#32 = .ok (.sub [x10, tokenOf ['x', '2', '0'],
      tokenOf ['x', '3', '0']]) := by decide

theorem test_decode_and :
    decodeWord 0b00000000100101000111001110110011#32 = .ok (.and [tokenOf ['x', '7'], tokenOf ['x', '8'],
      tokenOf ['x', '9']]) := by decide

theorem test_decode_or :
    decodeWord 0b00000001000110000110011110110011#32 = .ok (.or [tokenOf ['x', '1', '5'], tokenOf ['x', '1', '6'],
      tokenOf ['x', '1', '7']]) := by decide

theorem test_decode_addi :
    decodeWord 0b00000000101000000000001010010011#32 = .ok (.addi [tokenOf ['x', '5'], x0, tokenOf ['1', '0']]) :=
      by decide

theorem test_decode_andi :
    decodeWord 0b11111111111100111111001100010011#32 = .ok (.andi [tokenOf ['x', '6'], tokenOf ['x', '7'],
      tokenOf ['-', '1']]) := by decide

theorem test_decode_srli :
    decodeWord 0b00000001000111111101111110010011#32 = .ok (.srli [x31, x31, tokenOf ['1', '7']]) := by decide

theorem test_decode_lb :
    decodeWord 0b11111111111100000000111110000011#32 = .ok (.lb [x31, x0, tokenOf ['-', '1']]) := by decide

theorem test_decode_lh :
    decodeWord 0b00000000001000010001000010000011#32 = .ok (.lh [x1, x2, tokenOf ['2']]) := by decide

theorem test_decode_lw :
    decodeWord 0b10000000000000010010000010000011#32 = .ok (.lw [x1, x2, tokenOf ['-', '2', '0', '4', '8']]) :=
      by decide

theorem test_decode_lbu :
    decodeWord 0b00000000000100010100000010000011#32 = .ok (.lbu [x1, x2, tokenOf ['1']]) := by decide

theorem test_decode_lhu :
    decodeWord 0b00000110010001011101010100000011#32 = .ok (.lhu [x10, tokenOf ['x', '1', '1'],
      tokenOf ['1', '0', '0']]) := by decide

theorem test_decode_sw :
    decodeWord 0b00000010001100100010000000100011#32 = .ok (.sw [x3, x4, tokenOf ['3', '2']]) := by decide

theorem test_decode_beq :
    decodeWord 0b11111110010000011000111001100011#32 = .ok (.beq [x3, x4, tokenOf ['-', '4']]) := by decide

theorem test_decode_bne :
    decodeWord 0b01111110011000101001111111100011#32 = .ok (.bne [tokenOf ['x', '5'], tokenOf ['x', '6'],
      tokenOf ['2', '0', '4', '7']]) := by decide

theorem test_decode_blt :
    decodeWord 0b10000000100000111100000001100011#32 = .ok (.blt [tokenOf ['x', '7'], tokenOf ['x', '8'],
      tokenOf ['-', '2', '0', '4', '8']]) := by decide

theorem test_decode_bge :
    decodeWord 0b00101010001000001101101011100011#32 = .ok (.bge [x1, x2, tokenOf ['1', '3', '6', '5']]) := by decide

theorem test_decode_jal :
    decodeWord 0b00101010101110101010000011101111#32 = .ok (.jal [x1, tokenOf ['6', '9', '9', '0', '5', '0']]) :=
      by decide

/-- SB and SH have the word of SW (R87), which the word decoder answers (log 4). -/

theorem test_word_sb :
    encode (.sb [x1, x2, tokenOf ['4']]) = some 0b00000000000100010010001000100011#32 ∧
    decodeWord 0b00000000000100010010001000100011#32 = .ok (.sw [x1, x2, tokenOf ['4']]) := by decide

theorem test_word_sh :
    encode (.sh [x1, x2, tokenOf ['4']]) = some 0b00000000000100010010001000100011#32 ∧
    decodeWord 0b00000000000100010010001000100011#32 = .ok (.sw [x1, x2, tokenOf ['4']]) := by decide

/-- A funct3 no RegisterRegister mnemonic has, and an opcode outside R47. -/
theorem test_decode_rejects :
    decodeWord 0x003120B3#32 = .error .unknownFunction ∧ decodeWord 0x00000037#32 = .error .unknownOpcode := by decide

theorem test_decode_table_word_length : decodeTableWord 40 0x003100B3 = none := by decide

/-! ## The step that serves a request (parts 1 and 2); BEQ, BNE, BLT at the Branch encoder driven directly -/

theorem test_step_add :
    answer .dispatcher [tokenOf ['A', 'D', 'D'], x31, x31, x31] = [some (.word 0x01FF8FB3)] := by decide

theorem test_step_sub :
    answer .dispatcher [tokenOf ['S', 'U', 'B'], x1, x2, x3] = [some (.word 0x403100B3)] := by decide

theorem test_step_and :
    answer .dispatcher [tokenOf ['A', 'N', 'D'], x1, x2, x3] = [some (.word 0x003170B3)] := by decide

theorem test_step_or :
    answer .dispatcher [tokenOf ['O', 'R'], x1, x2, x3] = [some (.word 0x003160B3)] := by decide

theorem test_step_addi :
    answer .dispatcher [tokenOf ['A', 'D', 'D', 'I'],
      x1, x2, tokenOf ['-', '2', '0', '4', '9']] = [some (.word 0x7FF10093)] := by decide

theorem test_step_andi :
    answer .dispatcher [tokenOf ['A', 'N', 'D', 'I'],
      x1, x2, tokenOf ['4', '0', '9', '5']] = [some (.word 0xFFF17093)] := by decide

theorem test_step_srli :
    answer .dispatcher [tokenOf ['S', 'R', 'L', 'I'], x2, x1, tokenOf ['3', '1']] = [some (.word 0x01F0D113)] :=
      by decide

theorem test_step_lb :
    answer .dispatcher [tokenOf ['L', 'B'], x1, x2, tokenOf ['0']] = [some (.word 0x00010083)] := by decide

theorem test_step_lh :
    answer .dispatcher [tokenOf ['L', 'H'], x1, x2, tokenOf ['2']] = [some (.word 0x00211083)] := by decide

theorem test_step_lw :
    answer .dispatcher [tokenOf ['L', 'W'], x1, x2, tokenOf ['2', '0', '4', '7']] = [some (.word 0x7FF12083)] :=
      by decide

theorem test_step_lbu :
    answer .dispatcher [tokenOf ['L', 'B', 'U'], x1, x2, tokenOf ['1']] = [some (.word 0x00114083)] := by decide

theorem test_step_lhu :
    answer .dispatcher [tokenOf ['L', 'H', 'U'], x1, x2, tokenOf ['6']] = [some (.word 0x00615083)] := by decide

theorem test_step_sb :
    answer .dispatcher [tokenOf ['S', 'B'], x1, x2, tokenOf ['4']] = [some (.word 0x00112223)] := by decide

theorem test_step_sh :
    answer .dispatcher [tokenOf ['S', 'H'], x1, x2, tokenOf ['4']] = [some (.word 0x00112223)] := by decide

theorem test_step_sw :
    answer .dispatcher [tokenOf ['S', 'W'],
      x3, x4, tokenOf ['-', '2', '0', '4', '8']] = [some (.word 0x80322023)] := by decide

theorem test_step_beq :
    answer (.encoder .branch) [tokenOf ['B', 'E', 'Q'], x1, x2, tokenOf ['8']] = [some (.word 0x00208463)] :=
      by decide

theorem test_step_bne :
    answer (.encoder .branch) [tokenOf ['B', 'N', 'E'],
      x31, x31, tokenOf ['-', '1']] = [some (.word 0xFFFF9FE3)] := by decide

theorem test_step_blt :
    answer (.encoder .branch) [tokenOf ['B', 'L', 'T'],
      x1, x2, tokenOf ['1', '0', '2', '4']] = [some (.word 0x0020C863)] := by decide

theorem test_step_bge :
    answer .dispatcher [tokenOf ['B', 'G', 'E'],
      x1, x2, tokenOf ['2', '7', '3', '0']] = [some (.word 0xD420D563)] := by decide

theorem test_step_jal :
    answer .dispatcher [tokenOf ['J', 'A', 'L'], x1, tokenOf ['-', '7']] = [some (.word 0xFFBFF0EF)] := by decide

/-! ## Errors, in the order of detection (parts 2.3, 2.8, 2.10; R77) -/

theorem test_error_unknown :
    answer .dispatcher [tokenOf ['F', 'O', 'O'], x99] = [some (.error .unknownInstruction)] := by decide

theorem test_error_lower_case :
    answer .dispatcher [tokenOf ['a', 'd', 'd'], x1, x2, x3] = [some (.error .unknownInstruction)] := by decide

theorem test_error_unwired :
    answer .dispatcher [tokenOf ['B', 'E', 'Q'], x1, x2, tokenOf ['8']] = [some (.error .unknownInstruction)] :=
      by decide

theorem test_error_format :
    answer .dispatcher [tokenOf ['L', 'W'], x99, tokenOf ['a', 'b', 'c']] = [some (.error .invalidFormat)] :=
      by decide

theorem test_error_register :
    answer .dispatcher [tokenOf ['L', 'W'],
      x1, x99, tokenOf ['a', 'b', 'c']] = [some (.error .invalidRegister)] := by decide

theorem test_error_immediate :
    answer .dispatcher [tokenOf ['L', 'W'],
      x1, x2, tokenOf ['a', 'b', 'c']] = [some (.error .invalidImmediate)] := by decide

theorem test_error_register_before_shift :
    answer .dispatcher [tokenOf ['S', 'R', 'L', 'I'],
      x1, x99, tokenOf ['3', '2']] = [some (.error .invalidRegister)] := by decide

theorem test_error_range :
    answer .dispatcher [tokenOf ['L', 'W'],
      x1, x2, tokenOf ['9', '9', '9', '9', '9', '9', '9', '9', '9', '9', '9', '9', '9', '9', '9', '9', '9', '9', '9', '9']] = [some (.error .immediateOutOfRange)] := by decide

theorem test_error_shift :
    answer .dispatcher [tokenOf ['S', 'R', 'L', 'I'],
      x2, x1, tokenOf ['-', '1']] = [some (.error .invalidShiftAmount)] := by decide

theorem test_error_jump_below :
    answer .dispatcher [tokenOf ['J', 'A', 'L'],
      x1, tokenOf ['-', '1', '0', '4', '8', '5', '7', '8']] = [some (.error .immediateOutOfRange)] := by decide

theorem test_error_unsupported :
    answer (.encoder .registerImmediate) [tokenOf ['O', 'R', 'I'],
      x1, x2, tokenOf ['3']] = [some (.error .unsupportedInstruction)] := by decide

theorem test_error_unsupported_last :
    answer (.encoder .registerImmediate) [tokenOf ['O', 'R', 'I'], x1, x2] = [some (.error .invalidFormat)] :=
      by decide

theorem test_empty : answer .dispatcher [] = [some .empty] := by decide

/-! ## Register names and immediates (parts 2.1, 2.2) -/

theorem test_resolve :
    [x0, tokenOf ['x', '9'], x10, x31, tokenOf ['x', '3', '2'], tokenOf ['x', '0', '1'], tokenOf ['X', '1'],
      tokenOf ['x'], tokenOf ['r', 'a'], tokenOf ['x', '1', ',']].map (regResolve registerRom) =
      [some 0, some 9, some 10, some 31, none, none, none, none, none, none] := by decide

theorem test_parse :
    [tokenOf ['1', '0'], tokenOf ['-', '2', '0', '4', '8'], tokenOf ['+', '5'], tokenOf ['0', '0', '7'],
      tokenOf ['-', '0'], tokenOf ['9', '9', '9', '9', '9', '9', '9', '9', '9', '9', '9', '9', '9', '9', '9', '9', '9', '9', '9', '9'], [], tokenOf ['-'], tokenOf ['1', '2', 'a', 'b', 'c'], tokenOf ['0', 'x', '1', '0'], tokenOf ['+', '-', '1']].map parseImm =
      [some 10, some (-2048), some 5, some 7, some 0, some 99999999999999999999, none, none, none, none, none] := by
  decide

theorem test_half : [8, 9, 1, 0, -1, -2, -7, -8].map half = [4, 4, 0, 0, 0, -1, -3, -4] := by decide

theorem test_tc : tc 12 2048 = 0b100000000000 ∧ tc 12 (-2049) = 0b011111111111 ∧ tc 12 5000 = 0b001110001000 := by
  decide

/-! ## Steps and ports -/

theorem test_word_string : wordString 0x003100B3 = tokenOf ['0', '0', '0', '0', '0', '0', '0', '0', '0', '0', '1', '1', '0', '0', '0', '1', '0', '0', '0', '0', '0', '0', '0', '0', '1', '0', '1', '1', '0', '0', '1', '1'] := by decide

/-- Two requests with a wait between them: one result each, in order (R26, R119). -/
theorem test_two_requests :
    session [some ⟨.dispatcher, [tokenOf ['A', 'D', 'D'],
      x1, x2]⟩, none, some ⟨.dispatcher, [tokenOf ['A', 'D', 'D'], x1, x2, x3]⟩] State.reset =
      [some (.error .invalidFormat), none, some (.word 0x003100B3)] := by decide

theorem test_fetch_word : resultIn (step (State.reset.withFetchWord 32 0x00209463)) = some (.word 0x00209463) := by
  decide


/-! ## Witnesses: states and operands that meet the hypotheses of each statement, clause by clause -/

theorem ready_offering (r : Request) : Ready (offering r) := ⟨rfl, rfl, rfl⟩

theorem constant_reset : TablesConstant State.reset := ⟨rfl, rfl⟩

/-- A state whose RegisterTable has 16 of its 32 entries. -/
def partTable : State := { State.reset with regTable := registerRom.take 16, request := some ⟨.dispatcher, []⟩ }

/-- A state under reset with a request in flight. -/
def underReset : State := { State.reset with resetIn := true, request := some ⟨.dispatcher, []⟩, rsp := some .empty }

theorem witness_EveryStepKeepsInvariant :
    ∃ s t : State, Inv s ∧ step s = .next t ∧ t.rsp = some (.word 0x003100B3) :=
  ⟨offering ⟨.dispatcher, [tokenOf ['A', 'D', 'D'],
    x1, x2, x3]⟩, _, ⟨⟨rfl, rfl⟩, fun _ h => by simp [offering] at h⟩, rfl, by decide⟩

theorem witness_TablesAreNeverWritten : ∃ s t : State, step s = .next t ∧ s.request ≠ none :=
  ⟨offering ⟨.dispatcher, []⟩, _, rfl, by decide⟩

theorem witness_EncodeOperationsChangeOnlyTheResult :
    ∃ (i : Instr) (s t : State), exec i s = .next t ∧ t.rsp ≠ s.rsp :=
  ⟨.add [x1, x2, x3], State.reset, _, rfl, by decide⟩

theorem witness_RegResolveIsExact :
    TablesConstant State.reset ∧ regResolve State.reset.regTable (tokenOf ['x', '9']) = some 9 ∧
      regResolve State.reset.regTable x10 = some 10 ∧
        regResolve State.reset.regTable (tokenOf ['x', '3', '2']) = none :=
  ⟨constant_reset, by decide⟩

theorem witness_RegisterFieldsArePlainBinary :
    TablesConstant State.reset ∧ regResolve State.reset.regTable x1 = some 1 ∧
      regResolve State.reset.regTable x31 = some 31 ∧ x1 ≠ x31 :=
  ⟨constant_reset, by decide⟩

theorem witness_ResetDropsRequestsInFlight :
    underReset.resetIn = true ∧ TablesConstant underReset ∧ underReset.request ≠ none :=
  ⟨rfl, ⟨rfl, rfl⟩, by decide⟩

theorem witness_PartlyBuiltTableIsNotRead : partTable.resetIn = false ∧ partTable.regTable ≠ registerRom := by decide

theorem witness_NoRequestNoResult : Ready State.reset ∧ State.reset.request = none := ⟨⟨rfl, rfl, rfl⟩, rfl⟩

theorem witness_StepRunsDecodedInstruction :
    ∃ (s : State) (r : Request) (i : Instr), Ready s ∧ s.request = some r ∧
      decodeRequest s.dispatchTable r = .instr i :=
  ⟨offering ⟨.dispatcher, [tokenOf ['A', 'D', 'D'], x1, x2, x3]⟩, _, .add [x1, x2, x3],
    ready_offering _, rfl, by decide⟩

/-- The three clauses: the empty list, another list, a list whose first token is empty. -/
theorem witness_EmptyRequestGivesEmpty (tokens : List Token) :
    Ready (offering ⟨.dispatcher, tokens⟩) ∧ (offering ⟨.dispatcher, tokens⟩).request = some ⟨.dispatcher, tokens⟩ :=
  ⟨ready_offering _, rfl⟩

theorem witness_DispatcherTransactionIsEncode :
    ∃ (s : State) (tokens : List Token), Ready s ∧ s.request = some ⟨.dispatcher, tokens⟩ ∧
      encodeTokens tokens = .word 0x003100B3 :=
  ⟨offering ⟨.dispatcher, [tokenOf ['A', 'D', 'D'], x1, x2, x3]⟩, _, ready_offering _, rfl, by decide⟩

/-- Both clauses: ADD at the dispatcher, BEQ at its encoder. -/
theorem witness_MnemonicsRunTheirOperation :
    (∃ (s : State) (ops : List Token), Ready s ∧ Mnemonic.add ∈ wiredMnemonics ∧
      s.request = some ⟨.dispatcher, Mnemonic.add.token :: ops⟩) ∧
    (∃ (s : State) (ops : List Token), Ready s ∧
      s.request = some ⟨.encoder Mnemonic.beq.format, Mnemonic.beq.token :: ops⟩) :=
  ⟨⟨offering _, [x1, x2, x3], ready_offering _, by decide, rfl⟩, ⟨offering _, [x1, x2, tokenOf ['8']],
    ready_offering _, rfl⟩⟩

/-- A row with both function-select constants (SUB) and one with none (JAL). -/
theorem witness_DispatchRowsAgreeWithWords :
    TablesConstant State.reset ∧
    (∃ row ∈ State.reset.dispatchTable, row.funct7 = some 0b0100000 ∧ row.funct3 = some 0b000 ∧
      runEncoder row.format registerRom (row.mnemonic :: [x1, x2, x3]) = .word 0x403100B3) ∧
    (∃ row ∈ State.reset.dispatchTable, row.funct3 = none ∧
      runEncoder row.format registerRom (row.mnemonic :: [x1, tokenOf ['8']]) = .word 0x008000EF) :=
  ⟨constant_reset, by decide, by decide⟩

theorem witness_UnknownMnemonicIsRefusedFirst :
    Ready (offering ⟨.dispatcher, [tokenOf ['F', 'O', 'O'], x99]⟩) ∧
      ∀ mn ∈ wiredMnemonics, (tokenOf ['F', 'O', 'O']) ≠ mn.token :=
  ⟨ready_offering _, by decide⟩

theorem witness_UnwiredBranchMnemonics :
    Ready (offering ⟨.dispatcher, [tokenOf ['B', 'E', 'Q'], x1, x2, tokenOf ['8']]⟩) ∧
      Ready (offering ⟨.encoder .branch, [tokenOf ['B', 'E', 'Q'], x1, x2, tokenOf ['8']]⟩) :=
  ⟨ready_offering _, ready_offering _⟩

theorem witness_EveryRequestIsAnswered :
    ∃ (s : State) (r : Request), Ready s ∧ s.request = some r :=
  ⟨offering ⟨.dispatcher, [tokenOf ['A', 'D', 'D'], x1]⟩, _, ready_offering _, rfl⟩

theorem witness_UnsupportedNotReachableThroughDispatcher :
    ∃ (s t : State) (tokens : List Token), Ready s ∧ s.request = some ⟨.dispatcher, tokens⟩ ∧
      step s = .next t ∧ t.rsp = some (.error .unknownInstruction) :=
  ⟨offering ⟨.dispatcher, [tokenOf ['O', 'R', 'I'],
    x1, x2, tokenOf ['3']]⟩, _, _, ready_offering _, rfl, rfl, by decide⟩

theorem witness_RunPresentsResultsInRequestOrder : Ready State.reset := ⟨rfl, rfl, rfl⟩

/-- Two ready states that differ. -/
theorem witness_ResultIsIndependentOfEarlierRequests :
    Ready State.reset ∧ Ready (offering ⟨.dispatcher, [tokenOf ['A', 'D', 'D'], x1]⟩) ∧
      State.reset ≠ offering ⟨.dispatcher, [tokenOf ['A', 'D', 'D'], x1]⟩ :=
  ⟨⟨rfl, rfl, rfl⟩, ready_offering _, by decide⟩

/-- The clauses of RegisterRegisterShape: three names, a name that misses (in each position), a wrong count. -/
theorem witness_RegisterRegisterOperations :
    regResolve State.reset.regTable x0 = some 0 ∧ regResolve State.reset.regTable x31 = some 31 ∧
    regResolve State.reset.regTable (tokenOf ['x', '3', '2']) = none ∧
      regResolve State.reset.regTable (tokenOf ['3']) = none ∧
    ([x1, x2]).length ≠ 3 ∧ ([x1, x2, x3, x4]).length ≠ 3 := by decide

theorem witness_SubOperation :
    ∃ s t u : State, ∃ ops w, exec (.add ops) s = .next t ∧ t.rsp = some (.word w) ∧ exec (.sub ops) s = .next u :=
  ⟨State.reset, _, _, [x1, x2, x3], 0x003100B3, rfl, by decide, rfl⟩

/-- The clauses of TwoRegisterImmediateShape: count, register, unreadable immediate, and values at and past the ends of
the 12-bit range (AddiAndiOperations, LoadOperations, StoreOperations, BranchOperations). -/
theorem witness_TwoRegisterImmediateShape :
    ([x1, tokenOf ['4', '(', 'x', '2', ')']]).length ≠ 3 ∧
      regResolve State.reset.regTable (tokenOf ['x', '4', '0']) = none ∧
    regResolve State.reset.regTable x1 = some 1 ∧ regResolve State.reset.regTable x2 = some 2 ∧
    parseImm (tokenOf ['a', 'b', 'c']) = none ∧ parseImm (tokenOf ['-', '2', '0', '4', '9']) = some (-2049) ∧
      parseImm (tokenOf ['-', '2', '0', '4', '8']) = some (-2048) ∧
    parseImm (tokenOf ['2', '0', '4', '7']) = some 2047 ∧ parseImm (tokenOf ['2', '0', '4', '8']) = some 2048 :=
      by decide

/-- SRLI amounts at and past the ends of 0 to 31. -/
theorem witness_SrliOperation :
    parseImm (tokenOf ['-', '1']) = some (-1) ∧ parseImm (tokenOf ['0']) = some 0 ∧
      parseImm (tokenOf ['3', '1']) = some 31 ∧ parseImm (tokenOf ['3', '2']) = some 32 := by
  decide

theorem witness_StoreRegisterOrderMatters :
    ∃ s t u : State, ∃ a b imm w1 w2, TablesConstant s ∧ a ≠ b ∧ exec (.sw [a, b, imm]) s = .next t ∧
      t.rsp = some (.word w1) ∧ exec (.sw [b, a, imm]) s = .next u ∧ u.rsp = some (.word w2) :=
  ⟨State.reset, _, _, x1, x2, (tokenOf ['4']), 0x00112223, 0x0020A223, constant_reset, by decide, rfl, by decide, rfl,
    by decide⟩

theorem witness_BranchPermutation :
    ∃ s t : State, ∃ a b imm d w, exec (.bge [a, b, imm]) s = .next t ∧ t.rsp = some (.word w) ∧
      parseImm imm = some d :=
  ⟨State.reset, _, x1, x2, (tokenOf ['1', '3', '6', '5']), 1365, 0x2A20DAE3, rfl, by decide, by decide⟩

/-- The clauses of JumpOperation: count, register, unreadable immediate, halves at and past the ends. -/
theorem witness_JumpOperation :
    ([x1]).length ≠ 2 ∧ regResolve State.reset.regTable (tokenOf ['x', '3', '2']) = none ∧
    regResolve State.reset.regTable x1 = some 1 ∧ parseImm (tokenOf ['f', 'o', 'o']) = none ∧
    (parseImm (tokenOf ['1', '0', '4', '8', '5', '7', '5'])).map half = some 524287 ∧
      (parseImm (tokenOf ['1', '0', '4', '8', '5', '7', '6'])).map half = some 524288 ∧
    (parseImm (tokenOf ['-', '1', '0', '4', '8', '5', '7', '7'])).map half = some (-524288) ∧
      (parseImm (tokenOf ['-', '1', '0', '4', '8', '5', '7', '8'])).map half = some (-524289) := by decide

/-- An even and an odd immediate. -/
theorem witness_JumpPermutation :
    (∃ s t : State, ∃ a imm d w, exec (.jal [a, imm]) s = .next t ∧ t.rsp = some (.word w) ∧ parseImm imm = some d ∧
      d % 2 = 0) ∧
    (∃ s t : State, ∃ a imm d w, exec (.jal [a, imm]) s = .next t ∧ t.rsp = some (.word w) ∧ parseImm imm = some d ∧
      d % 2 ≠ 0) :=
  ⟨⟨State.reset, _, x1, (tokenOf ['2', '0', '4', '6']), 2046, 0x7FE000EF, rfl, by decide, by decide, by decide⟩,
    ⟨State.reset, _, x1, (tokenOf ['-', '7']), -7, 0xFFBFF0EF, rfl, by decide, by decide, by decide⟩⟩

/-- Both sides of both ends. -/
theorem witness_JumpAcceptedTokenValues :
    regResolve State.reset.regTable x1 = some 1 ∧
      parseImm (tokenOf ['-', '1', '0', '4', '8', '5', '7', '7']) = some (-1048577) ∧
    parseImm (tokenOf ['-', '1', '0', '4', '8', '5', '7', '8']) = some (-1048578) ∧
      parseImm (tokenOf ['1', '0', '4', '8', '5', '7', '5']) = some 1048575 ∧
    parseImm (tokenOf ['1', '0', '4', '8', '5', '7', '6']) = some 1048576 := by decide

theorem witness_ErrorKindsPerFormat :
    ∃ (i : Instr) (s t : State), exec i s = .next t ∧ t.rsp = some (.error .invalidShiftAmount) :=
  ⟨.srli [x2, x1, tokenOf ['3', '2']], State.reset, _, rfl, by decide⟩

/-- Every clause: a foreign mnemonic with a wrong count, a register that misses, an unreadable immediate, and none of
these; and the same mnemonic at the dispatcher. -/
theorem witness_OtherMnemonicsAtRegisterImmediate (e : Entry) :
    Ready (offering ⟨e, [tokenOf ['O', 'R', 'I'], x1, x2, tokenOf ['3']]⟩) ∧
      (∀ mn ∈ FormatClass.registerImmediate.mnemonics, mn.token ≠ (tokenOf ['O', 'R', 'I'])) ∧
    ([x1, x2]).length ≠ 3 ∧ regResolve State.reset.regTable x99 = none ∧
    (regResolve State.reset.regTable x1).isSome ∧ parseImm (tokenOf ['q']) = none ∧
      (parseImm (tokenOf ['3'])).isSome ∧
    dispatchLookup State.reset.dispatchTable (tokenOf ['O', 'R', 'I']) = none :=
  ⟨ready_offering _, by decide⟩

theorem witness_OtherMnemonicsAtTheOtherEncoders (e : Entry) :
    Ready (offering ⟨e, [tokenOf ['F', 'O', 'O'], x1, x2, tokenOf ['-', '2', '0', '4', '8']]⟩) ∧
      regResolve State.reset.regTable x1 = some 1 ∧
    regResolve State.reset.regTable x2 = some 2 ∧ parseImm (tokenOf ['-', '2', '0', '4', '8']) = some (-2048) ∧
    (tokenOf ['F', 'O', 'O']) ∉ FormatClass.registerRegister.mnemonics.map Mnemonic.token ∧
    (tokenOf ['F', 'O', 'O']) ∉ FormatClass.load.mnemonics.map Mnemonic.token ∧
    (tokenOf ['F', 'O', 'O']) ∉ FormatClass.branch.mnemonics.map Mnemonic.token :=
  ⟨ready_offering _, by decide⟩

/-- The ends of the two ranges. -/
theorem witness_TwosComplementFields :
    (tc 12 (-2048)).toInt = -2048 ∧ (tc 12 2047).toInt = 2047 ∧ (tc 20 (-524288)).toInt = -524288 ∧
    (tc 20 524287).toInt = 524287 := by decide

theorem witness_HalvingRoundsTowardZero : (0 : Int) ≤ 0 ∧ half 0 = 0 ∧ (-1 : Int) < 0 ∧ half (-1) = 0 := by decide

theorem witness_StrayCharactersMatchNothing :
    TablesConstant State.reset ∧ (0x2C#8 : Char8) ∈ (tokenOf ['x', '1', ',']) ∧
      (0x20#8 : Char8) ∈ tokenOf [' ', '4'] :=
  ⟨constant_reset, by decide⟩

theorem witness_ResponseLines :
    State.reset.rsp = none ∧ (State.reset.present .empty).rsp = some .empty ∧
    (State.reset.present (.word 0x33)).rsp = some (.word 0x33) ∧
    ∀ k, (State.reset.present (.error k)).rsp = some (.error k) :=
  ⟨rfl, rfl, rfl, fun _ => rfl⟩

/-- Lines without a valid request, and valid lines with fewer lanes than the port has. -/
theorem witness_RequestPortCarriesTokens_sample :
    (⟨false, 0, [], []⟩ : ReqPort).valid = false ∧ (⟨true, 0, [], []⟩ : ReqPort).valid = true ∧
    (⟨true, 0, [], []⟩ : ReqPort).inDomain = false := by
  refine ⟨rfl, rfl, ?_⟩
  simp [ReqPort.inDomain, Config.maxTokens]

/-- A request of the largest size the spec fixes can be driven. -/
theorem witness_RequestPortCarriesTokens : ∃ p, ReqPort.drive [tokenOf ['J', 'A', 'L'],
    x31, tokenOf ['-', '1', '0', '4', '8', '5', '7', '6']] = some p := by
  refine ⟨_, if_pos ?_⟩
  have h1 : 5 ≤ Config.maxTokens := Nat.le_add_left 5 _
  have h2 : 8 ≤ Config.maxTokenChars := Nat.le_add_left 8 _
  simp [withinBounds, tokenOf, x31]
  omega

/-- One canonical instruction of each family, at the ends of its range. -/
theorem witness_DecodeEncodeRoundTrip :
    canonical (.sub [x0, x31, x10]) = true ∧ canonical (.addi [x1, x2, tokenOf ['-', '2', '0', '4', '8']]) = true ∧
    canonical (.srli [x1, x2, tokenOf ['3', '1']]) = true ∧
      canonical (.lhu [x1, x2, tokenOf ['2', '0', '4', '7']]) = true ∧
      canonical (.sw [x1, x2, tokenOf ['-', '2', '0', '4', '8']]) = true ∧
    canonical (.bne [x1, x2, tokenOf ['2', '0', '4', '7']]) = true ∧
      canonical (.jal [x1, tokenOf ['1', '0', '4', '8', '5', '7', '4']]) = true ∧
    canonical (.jal [x1, tokenOf ['-', '1', '0', '4', '8', '5', '7', '6']]) = true := by decide

theorem witness_EncodedWordsDecode : encode (.sb [x3, x4, tokenOf ['+', '5']]) = some 0x003222A3 := by decide

theorem witness_DecodedWordsReencode : decodeWord 0x7FFFF0EF#32 = .ok (.jal [x1, tokenOf ['1', '0', '4', '8', '5', '7', '4']]) := by decide

theorem witness_OpcodeRowsAreDisjoint :
    Mnemonic.sub ∈ decodableMnemonics ∧ matchesRow 0x403100B3 .sub = true := by decide

/-- Both conclusions: an instruction with a word and one without. -/
theorem witness_ExecPresentsTheEncodedWord :
    TablesConstant State.reset ∧ encode (.bge [x1, x2, tokenOf ['8']]) = some 0x0020D463 ∧
      encode (.bge [x1, x2, tokenOf ['L', '1']]) = none :=
  ⟨constant_reset, by decide⟩

/-- Each flaw is some instruction's (the tests `test_flaw_…`), and some instruction has none. -/
theorem witness_FirstFlawIsTheErrorRaised :
    TablesConstant State.reset ∧ (Instr.srli [x2, x1, tokenOf ['-', '1']]).flaw = some .shiftRange ∧
      (Instr.srli [x2, x1, tokenOf ['0']]).flaw = none :=
  ⟨constant_reset, by decide⟩

theorem witness_FetchWordRunsItsInstruction :
    0xFFFF9FE3 < 2 ^ 32 ∧ decodeTableWord 32 0xFFFF9FE3 = some (.bne [x31, x31, tokenOf ['-', '1']]) := by decide

/-- Two states that differ in the result on the output. -/
theorem witness_StepForgetsTheLastResult :
    (State.reset.present .empty).toBlock = State.reset.toBlock ∧
    (State.reset.present .empty).request = State.reset.request ∧
    (State.reset.present .empty).resetIn = State.reset.resetIn ∧ State.reset.present .empty ≠ State.reset := by decide

theorem witness_WordStringIsMostSignificantFirst : (31 : Nat) < 32 ∧ (0 : Nat) < 32 := by decide

end Sys2Proof.Tests
end

section
/-! The encoded word string of RVA (spec/00_scope.md R6): its length, its characters, and obligation O43. -/

namespace Sys2Proof.Machine

/-- A set bit is the character '1' and a clear bit the character '0'. -/
theorem bitChar_eq_ite (b : Bool) : bitChar b = if b then 0x31#8 else 0x30#8 := rfl

@[simp] theorem length_wordString (w : Word) : (wordString w).length = 32 := by
  rw [wordString, List.length_map, List.length_range]

/-- R6: character `k`, counted from 0 at the left, is `word[31-k]`. -/
theorem getElem?_wordString (w : Word) {k : Nat} (hk : k < 32) :
    (wordString w)[k]? = some (bitChar (w.getLsbD (31 - k))) := by
  rw [wordString, List.getElem?_map, List.getElem?_range hk, Option.map_some]

/-- Settles O43, from the length of the string and the character at each place. -/
theorem wordStringIsMostSignificantFirst : Obligations.WordStringIsMostSignificantFirst := by
  intro w
  refine ⟨length_wordString w, fun k hk => ?_⟩
  rw [getElem?_wordString w hk, bitChar_eq_ite]

end Sys2Proof.Machine
end

section
/-! The words the encoders build and the rows of the opcode table: an encoder answers only words that carry the fixed
bits of a mnemonic of its own set. -/

namespace Sys2Proof.Machine

variable {table : List RegEntry} {tokens : List Token} {w : Word}

theorem matchesRow_iff {mn : Mnemonic} :
    matchesRow w mn = true ↔ w &&& (opcodePattern mn).2 = (opcodePattern mn).1 := beq_iff_eq

theorem encRR_matchesRow (h : encRR table tokens = .word w) :
    ∃ mn ∈ FormatClass.registerRegister.mnemonics, tokens.head? = some mn.token ∧ matchesRow w mn = true := by
  obtain ⟨m, d, a, b, rd, rs1, rs2, f7, f3, rfl, -, -, -, hc, rfl⟩ := encRR_word h
  have mask := rrWord_and_mask f7 f3 (u5 rs2) (u5 rs1) (u5 rd)
  obtain ⟨rfl, rfl, rfl⟩ | ⟨rfl, rfl, rfl⟩ | ⟨rfl, rfl, rfl⟩ | ⟨rfl, rfl, rfl⟩ := rrConstants_some hc
  · exact ⟨.add, by decide, rfl, matchesRow_iff.2 mask⟩
  · exact ⟨.sub, by decide, rfl, matchesRow_iff.2 mask⟩
  · exact ⟨.and, by decide, rfl, matchesRow_iff.2 mask⟩
  · exact ⟨.or, by decide, rfl, matchesRow_iff.2 mask⟩

theorem encRI_matchesRow (h : encRI table tokens = .word w) :
    ∃ mn ∈ FormatClass.registerImmediate.mnemonics, tokens.head? = some mn.token ∧ matchesRow w mn = true := by
  obtain ⟨m, d, a, t, rd, rs1, v, rfl, -, -, -, ⟨rfl, -, rfl⟩ | ⟨rfl, rfl⟩ | ⟨rfl, rfl⟩⟩ := encRI_word h
  · exact ⟨.srli, by decide, rfl, matchesRow_iff.2 (shiftWord_and_mask _ _ _)⟩
  · exact ⟨.addi, by decide, rfl, matchesRow_iff.2 (riWord_and_mask _ _ _ _)⟩
  · exact ⟨.andi, by decide, rfl, matchesRow_iff.2 (riWord_and_mask _ _ _ _)⟩

theorem encLoad_matchesRow (h : encLoad table tokens = .word w) :
    ∃ mn ∈ FormatClass.load.mnemonics, tokens.head? = some mn.token ∧ matchesRow w mn = true := by
  obtain ⟨m, d, a, t, rd, rs1, v, f3, rfl, -, -, -, -, hc, rfl⟩ := encLoad_word h
  have mask := loadWord_and_mask (tc 12 v) f3 (u5 rs1) (u5 rd)
  obtain ⟨rfl, rfl⟩ | ⟨rfl, rfl⟩ | ⟨rfl, rfl⟩ | ⟨rfl, rfl⟩ | ⟨rfl, rfl⟩ := loadFunct3_some hc
  · exact ⟨.lb, by decide, rfl, matchesRow_iff.2 mask⟩
  · exact ⟨.lh, by decide, rfl, matchesRow_iff.2 mask⟩
  · exact ⟨.lw, by decide, rfl, matchesRow_iff.2 mask⟩
  · exact ⟨.lbu, by decide, rfl, matchesRow_iff.2 mask⟩
  · exact ⟨.lhu, by decide, rfl, matchesRow_iff.2 mask⟩

/-- The Store encoder does not look at `tokens[0]` (R87): `SB`, `SH` and `SW` share one row pattern. -/
theorem encStore_matchesRow (h : encStore table tokens = .word w) : matchesRow w .sw = true := by
  obtain ⟨m, b, a, t, rs2, rs1, v, rfl, -, -, -, -, rfl⟩ := encStore_word h
  exact matchesRow_iff.2 (storeWord_and_mask _ _ _)

theorem encBranch_matchesRow (h : encBranch table tokens = .word w) :
    ∃ mn ∈ FormatClass.branch.mnemonics, tokens.head? = some mn.token ∧ matchesRow w mn = true := by
  obtain ⟨m, a, b, t, rs1, rs2, v, f3, rfl, -, -, -, hc, rfl⟩ := encBranch_word h
  have mask := branchWord_and_mask (tc 12 v) f3 (u5 rs2) (u5 rs1)
  obtain ⟨rfl, rfl⟩ | ⟨rfl, rfl⟩ | ⟨rfl, rfl⟩ | ⟨rfl, rfl⟩ := branchFunct3_some hc
  · exact ⟨.beq, by decide, rfl, matchesRow_iff.2 mask⟩
  · exact ⟨.bne, by decide, rfl, matchesRow_iff.2 mask⟩
  · exact ⟨.blt, by decide, rfl, matchesRow_iff.2 mask⟩
  · exact ⟨.bge, by decide, rfl, matchesRow_iff.2 mask⟩

theorem encJump_matchesRow (h : encJump table tokens = .word w) : matchesRow w .jal = true := by
  obtain ⟨m, d, t, rd, v, rfl, -, -, -, rfl⟩ := encJump_word h
  exact matchesRow_iff.2 (jumpWord_and_mask _ _)

/-- A word any encoder builds carries the fixed bits of a mnemonic of the encoder's set: the one `tokens[0]` spells,
except at the two encoders that do not look at it. -/
theorem runEncoder_matchesRow {f : FormatClass} (h : runEncoder f table tokens = .word w) :
    ∃ mn ∈ f.mnemonics, (tokens.head? = some mn.token ∨ f = .store ∨ f = .jump) ∧ matchesRow w mn = true := by
  cases f with
  | registerRegister =>
    obtain ⟨mn, hmem, hhead, hrow⟩ := encRR_matchesRow h
    exact ⟨mn, hmem, .inl hhead, hrow⟩
  | registerImmediate =>
    obtain ⟨mn, hmem, hhead, hrow⟩ := encRI_matchesRow h
    exact ⟨mn, hmem, .inl hhead, hrow⟩
  | load =>
    obtain ⟨mn, hmem, hhead, hrow⟩ := encLoad_matchesRow h
    exact ⟨mn, hmem, .inl hhead, hrow⟩
  | store => exact ⟨.sw, by decide, .inr (.inl rfl), encStore_matchesRow h⟩
  | branch =>
    obtain ⟨mn, hmem, hhead, hrow⟩ := encBranch_matchesRow h
    exact ⟨mn, hmem, .inl hhead, hrow⟩
  | jump => exact ⟨.jal, by decide, .inr (.inr rfl), encJump_matchesRow h⟩

theorem runEncoder_isEncodedWord {f : FormatClass} (h : runEncoder f table tokens = .word w) : IsEncodedWord w := by
  obtain ⟨mn, -, -, hrow⟩ := runEncoder_matchesRow h
  exact ⟨mn, hrow⟩

end Sys2Proof.Machine
end

section
/-! The state family (spec/10_state.md): what a step leaves unchanged, the invariant, and what a step reads.
Obligations O1 to O5 and O52. -/

namespace Sys2Proof.Machine

/-- Serving a request presents one result, which is an encoded word where it is a word. -/
theorem serve_presents_encoded (r : Request) (s : State) :
    ∃ res, serve r s = .next (s.present res) ∧ ∀ w, res = .word w → IsEncodedWord w := by
  unfold serve
  split
  · exact ⟨_, exec_eq_present _ s, fun _ h => runEncoder_isEncodedWord h⟩
  · exact ⟨_, rfl, nofun⟩
  · exact ⟨_, rfl, nofun⟩
  · exact ⟨_, rfl, fun _ h => runEncoder_isEncodedWord h⟩

/-- Neither table is written by a step. -/
theorem step_toBlock {s t : State} (h : step s = .next t) : t.toBlock = s.toBlock := by
  obtain ⟨-, hs⟩ | ⟨-, -, hs⟩ | ⟨-, -, -, hs⟩ | ⟨r, -, -, -, hs⟩ := step_cases s
  · cases hs.symm.trans h; rfl
  · cases hs.symm.trans h; rfl
  · cases hs.symm.trans h; rfl
  · obtain ⟨res, hres⟩ := serve_presents r s.accept
    cases (hs.trans hres).symm.trans h; rfl

/-- A step presents no word, or the one its request was served with. -/
theorem step_rsp_isEncodedWord {s t : State} {w : Word} (h : step s = .next t) (hw : t.rsp = some (.word w)) :
    IsEncodedWord w := by
  obtain ⟨-, hs⟩ | ⟨-, -, hs⟩ | ⟨-, -, -, hs⟩ | ⟨r, -, -, -, hs⟩ := step_cases s
  · cases hs.symm.trans h; cases hw
  · cases hs.symm.trans h; cases hw
  · cases hs.symm.trans h; cases hw
  · obtain ⟨res, hres, hencoded⟩ := serve_presents_encoded r s.accept
    cases (hs.trans hres).symm.trans h
    exact hencoded w (Option.some.inj hw)

/-- Settles O3: no step writes a table, and every encoder answers only words that carry a row's fixed bits. -/
theorem everyStepKeepsInvariant : Obligations.EveryStepKeepsInvariant := by
  rintro s t ⟨⟨hreg, hdisp⟩, -⟩ h
  have hblock := step_toBlock h
  exact ⟨⟨(congrArg Block.regTable hblock).trans hreg, (congrArg Block.dispatchTable hblock).trans hdisp⟩,
    fun _ hw => step_rsp_isEncodedWord h hw⟩

/-- Settles O4, from the frame of a step. -/
theorem tablesAreNeverWritten : Obligations.TablesAreNeverWritten := fun _ _ h =>
  ⟨congrArg Block.regTable (step_toBlock h), congrArg Block.dispatchTable (step_toBlock h)⟩

/-- Settles O5: an instruction only presents what its encoder answers. -/
theorem encodeOperationsChangeOnlyTheResult : Obligations.EncodeOperationsChangeOnlyTheResult := by
  intro i s t h
  cases (exec_eq_present i s).symm.trans h
  exact ⟨State.present_regTable .., State.present_dispatchTable .., State.present_request .., State.present_resetIn ..⟩

/-! ## What a step reads -/

/-- An instruction overwrites the result output without reading it. -/
theorem exec_rsp_irrelevant (i : Instr) (s : State) (o : Option Result) : exec i { s with rsp := o } = exec i s := by
  rw [exec_eq_present, exec_eq_present]; rfl

theorem serve_rsp_irrelevant (r : Request) (s : State) (o : Option Result) :
    serve r { s with rsp := o } = serve r s := by
  unfold serve
  cases decodeRequest s.dispatchTable r with
  | instr i => exact exec_rsp_irrelevant i s o
  | empty => rfl
  | unknownMnemonic => rfl
  | foreign f => rfl

theorem step_rsp_irrelevant (s : State) (o : Option Result) : step { s with rsp := o } = step s := by
  obtain ⟨hr, hs⟩ | ⟨hr, hb, hs⟩ | ⟨hr, -, hq, hs⟩ | ⟨r, hr, hb, hq, hs⟩ := step_cases s
  · rw [hs]; exact step_underReset hr
  · rw [hs]; exact step_notBuilt hr hb
  · rw [hs]; exact step_noRequest hr hq
  · rw [hs]; exact (step_serves hr hb hq).trans (serve_rsp_irrelevant r s.accept o)

/-- Settles O52: the two states differ in the result output only, and no step reads it. -/
theorem stepForgetsTheLastResult : Obligations.StepForgetsTheLastResult := by
  intro s1 s2 hblock hrequest hreset
  have hs2 : { s1 with rsp := s2.rsp } = s2 := by rw [hblock, hrequest, hreset]
  exact (step_rsp_irrelevant s1 s2.rsp).symm.trans (congrArg step hs2)

/-! ## Reset -/

/-- Settles O1, by reading off the two constant tables. -/
theorem resetHoldsConstantTables : Obligations.ResetHoldsConstantTables := by
  refine ⟨rfl, ?entries, rfl, rfl, ?opcodes, rfl, rfl, State.reset_rsp⟩
  case entries => decide
  case opcodes => decide

/-- Settles O2: the tables are the constants, and no result is presented. -/
theorem resetMeetsInvariant : Obligations.ResetMeetsInvariant :=
  ⟨⟨State.reset_regTable, State.reset_dispatchTable⟩, nofun⟩

end Sys2Proof.Machine
end

section
/-! The dispatch table and the opcode table (spec/10_state.md R11, spec/41_dispatcher.md R56): the constants of a row
are fixed bits of its mnemonic's words. Obligation O15. -/

namespace Sys2Proof.Machine

/-- Bits `a` to `a + n - 1` are fixed by the mnemonic's row of the opcode table, with value `f`. -/
def FixesField (mn : Mnemonic) (a : Nat) {n : Nat} (f : BitVec n) : Prop :=
  (opcodePattern mn).2.extractLsb' a n = BitVec.allOnes n ∧ (opcodePattern mn).1.extractLsb' a n = f

/-- A word that carries a row's fixed bits has the value of every field the row fixes. -/
theorem FixesField.extract_eq {mn : Mnemonic} {a n : Nat} {f : BitVec n} {w : Word} (hf : FixesField mn a f)
    (hw : matchesRow w mn = true) : w.extractLsb' a n = f := by
  obtain ⟨hmask, hmatch⟩ := hf
  rw [← hmatch, ← matchesRow_iff.1 hw, BitVec.extractLsb'_and, hmask, BitVec.and_allOnes]

/-- The constants of each dispatch row are fields the opcode table fixes for the row's mnemonic, and for every
mnemonic of the encoders that do not look at `tokens[0]`. -/
theorem dispatchRom_fixesFields : ∀ row ∈ dispatchRom, ∀ mn ∈ row.format.mnemonics,
    row.mnemonic = mn.token ∨ row.format = .store ∨ row.format = .jump →
    FixesField mn 0 row.opcode ∧ (∀ f ∈ row.funct3, FixesField mn 12 f) ∧ (∀ f ∈ row.funct7, FixesField mn 25 f) := by
  unfold FixesField
  decide

/-- Settles O15: the word carries the fixed bits of the row's mnemonic, and the row's constants are among them. -/
theorem dispatchRowsAgreeWithWords : Obligations.DispatchRowsAgreeWithWords := by
  rintro s ⟨-, hdisp⟩ row hrow ops w h
  obtain ⟨mn, hmem, hhead, hw⟩ := runEncoder_matchesRow h
  rw [hdisp] at hrow
  obtain ⟨hop, h3, h7⟩ := dispatchRom_fixesFields row hrow mn hmem (hhead.imp_left Option.some.inj)
  exact ⟨hop.extract_eq hw, fun f hf => (h3 f hf).extract_eq hw, fun f hf => (h7 f hf).extract_eq hw⟩

end Sys2Proof.Machine
end

section
/-! One transaction and a session of them (spec/20_memory.md R26): a request that meets complete tables is answered
with the result the constant tables give it, whatever was served before. Obligations O20 and O21. -/

namespace Sys2Proof.Machine

/-! ## The dispatch table search is the spec's case distinction -/

/-- R57, for the mnemonic of each dispatch row: the case distinction selects the row's encoder. -/
theorem encodeTokens_of_mem_dispatchRom (ops : List Token) : ∀ row ∈ dispatchRom,
    encodeTokens (row.mnemonic :: ops) = runEncoder row.format registerRom (row.mnemonic :: ops) := by
  intro row hrow
  fin_cases hrow <;> rfl

/-- R58: without a row for it, a mnemonic is none of those the case distinction names. -/
theorem encodeTokens_of_dispatchLookup_none {m : Token} (ops : List Token) (h : dispatchLookup dispatchRom m = none) :
    encodeTokens (m :: ops) = .error .unknownInstruction := by
  have hm : m ∉ dispatchRom.map DispatchRow.mnemonic := by
    rw [List.mem_map]
    rintro ⟨row, hrow, rfl⟩
    exact List.find?_eq_none.1 h row hrow (beq_self_eq_true _)
  simp only [dispatchRom, List.map_append, List.mem_append, not_or] at hm
  obtain ⟨⟨⟨⟨hRR, hRI⟩, hLoad⟩, hStore⟩, hBgeJal⟩ := hm
  obtain ⟨hBge, hJal⟩ := List.ne_and_not_mem_of_not_mem_cons hBgeJal
  exact (if_neg hRR).trans <| (if_neg hRI).trans <| (if_neg hLoad).trans <| (if_neg hStore).trans <|
    (if_neg hBge).trans <| if_neg (List.ne_of_not_mem_cons hJal)

theorem encodeTokens_of_dispatchLookup_some {m : Token} {row : DispatchRow} (ops : List Token)
    (h : dispatchLookup dispatchRom m = some row) :
    encodeTokens (m :: ops) = runEncoder row.format registerRom (m :: ops) := by
  have hm : row.mnemonic = m := beq_iff_eq.1 (List.find?_some (p := fun r : DispatchRow => r.mnemonic == m) h)
  rw [← hm]
  exact encodeTokens_of_mem_dispatchRom ops row (List.mem_of_find?_eq_some h)

/-! ## What serving a request presents -/

/-- Tokens an encoder reads are its operation for `tokens[0]`, or a foreign mnemonic. -/
theorem decodeAt_cases (f : FormatClass) (tokens : List Token) :
    (∃ i, decodeAt f tokens = .instr i) ∨ decodeAt f tokens = .foreign f := by
  cases tokens with
  | nil => exact .inr rfl
  | cons m ops =>
    simp only [decodeAt]
    split
    · exact .inl ⟨_, rfl⟩
    · exact .inr rfl

/-- R63: a request read by encoder `f` presents what `f` answers to the full token list, its own mnemonic or not. -/
theorem serve_of_decodeAt {r : Request} {s : State} {f : FormatClass}
    (h : decodeRequest s.dispatchTable r = decodeAt f r.tokens) :
    serve r s = .next (s.present (runEncoder f s.regTable r.tokens)) := by
  unfold serve
  obtain ⟨i, hi⟩ | hf := decodeAt_cases f r.tokens
  · obtain ⟨htokens, hformat⟩ := decodeAt_instr hi
    rw [h, hi, htokens, ← hformat]
    exact exec_eq_present i s
  · rw [h, hf]

/-- With complete tables, serving a request presents the result the spec gives it. -/
theorem serve_eq_present_resultOf {s : State} (hs : TablesConstant s) (r : Request) :
    serve r s = .next (s.present (resultOf r)) := by
  obtain ⟨hreg, hdisp⟩ := hs
  obtain ⟨entry, tokens⟩ := r
  cases entry with
  | encoder f => rw [serve_of_decodeAt (f := f) rfl, hreg]; rfl
  | dispatcher =>
    cases tokens with
    | nil => rfl
    | cons m ops =>
      have hdecode : decodeRequest s.dispatchTable ⟨.dispatcher, m :: ops⟩ = decodeDispatch dispatchRom (m :: ops) :=
        congrArg (decodeDispatch · (m :: ops)) hdisp
      have hresult : resultOf ⟨.dispatcher, m :: ops⟩ = encodeTokens (m :: ops) := rfl
      cases hrow : dispatchLookup dispatchRom m with
      | none =>
        rw [hresult, encodeTokens_of_dispatchLookup_none ops hrow]
        simp only [serve, hdecode, decodeDispatch, hrow, raise]
      | some row =>
        rw [hresult, encodeTokens_of_dispatchLookup_some ops hrow, ← hreg]
        exact serve_of_decodeAt (by simp only [hdecode, decodeDispatch, hrow])

/-! ## Sessions -/

/-- A step of a ready block presents the result of the request offered, nothing where none is, and leaves the block
ready. -/
theorem Ready.step_offer {s : State} (h : Ready s) (o : Option Request) :
    ∃ t, step (s.offer o) = .next t ∧ Ready t ∧ t.rsp = o.map resultOf := by
  obtain ⟨hout, htables⟩ := h
  cases o with
  | none => exact ⟨_, step_noRequest hout rfl, ⟨hout, htables⟩, rfl⟩
  | some r =>
    have hserve : step (s.offer (some r)) = serve r (s.offer (some r)).accept :=
      step_serves hout ((s.offer _).tablesBuilt_iff.2 htables) rfl
    have hpresent := serve_eq_present_resultOf (s := (s.offer (some r)).accept) htables r
    exact ⟨_, hserve.trans hpresent, ⟨hout, htables⟩, rfl⟩

/-- Settles O20, by induction on the offers: every step presents the result of its own request and leaves the block
ready for the next. -/
theorem runPresentsResultsInRequestOrder : Obligations.RunPresentsResultsInRequestOrder := by
  intro s offers hs
  induction offers generalizing s with
  | nil => rfl
  | cons o os ih =>
    obtain ⟨t, hstep, ht, hrsp⟩ := hs.step_offer o
    rw [List.map_cons, ← ih t ht, ← hrsp, session, hstep]

/-- Settles O21: in both sessions the last result is the one the request has alone. -/
theorem resultIsIndependentOfEarlierRequests : Obligations.ResultIsIndependentOfEarlierRequests := by
  intro s1 s2 before r hs1 hs2
  refine ⟨resultOf r, ?afterOthers, runPresentsResultsInRequestOrder s2 [some r] hs2⟩
  case afterOthers =>
    rw [runPresentsResultsInRequestOrder s1 _ hs1, List.map_append]
    exact List.getLast?_concat

end Sys2Proof.Machine
end

section
/-! The immediate fields: two's complement and the Jump halving (spec/30_encoding.md R41, R44). Obligations O38 and
O39. -/

namespace Sys2Proof.Machine

/-- R41: the field's unsigned value, for every width. -/
theorem tc_toNat (n : Nat) (v : Int) : ((tc n v).toNat : Int) = v % 2 ^ n := by
  rw [tc, BitVec.toNat_ofInt, Int.toNat_of_nonneg (Int.emod_nonneg _ (by simp)), Nat.cast_pow, Nat.cast_ofNat]

/-- R41: a field represents every value of its signed range. -/
theorem tc_toInt {n : Nat} {v : Int} (hn : 0 < n) (hlo : -2 ^ (n - 1) ≤ v) (hhi : v < 2 ^ (n - 1)) :
    (tc n v).toInt = v := BitVec.toInt_ofInt_eq_self hn hlo hhi

/-- The 12-bit field of an immediate a Load or a Store takes. -/
theorem tc_toInt_of_inRange {v : Int} (h : inRange lsImmMin lsImmMax v = true) : (tc 12 v).toInt = v :=
  tc_toInt (by decide) (inRange_iff.1 h).1 (Int.lt_add_one_of_le (inRange_iff.1 h).2)

/-- The 20-bit field of a half a Jump takes. -/
theorem tc_toInt_of_inRange_jump {v : Int} (h : inRange jalHMin jalHMax v = true) : (tc 20 v).toInt = v :=
  tc_toInt (by decide) (inRange_iff.1 h).1 (Int.lt_add_one_of_le (inRange_iff.1 h).2)

/-- Settles O38, from the field's value modulo `2 ^ N` and its exactness on the signed range. -/
theorem twosComplementFields : Obligations.TwosComplementFields :=
  ⟨tc_toNat, fun _ hlo hhi => tc_toInt_of_inRange (inRange_iff.2 ⟨hlo, hhi⟩),
    fun _ hlo hhi => tc_toInt_of_inRange_jump (inRange_iff.2 ⟨hlo, hhi⟩)⟩

/-- Settles O39: truncated division is floor division of the magnitude, with the sign put back. -/
theorem halvingRoundsTowardZero : Obligations.HalvingRoundsTowardZero := by
  refine ⟨fun v hv => Int.tdiv_eq_ediv_of_nonneg hv, fun v hv => ?_⟩
  rw [half, ← Int.tdiv_eq_ediv_of_nonneg (by omega), Int.neg_tdiv, neg_neg]

theorem half_two_mul (v : Int) : half (2 * v) = v := Int.mul_tdiv_cancel_left v (by decide)

/-- R46: the half of an even displacement is the displacement shifted right by one, so no bit but the lowest is lost. -/
theorem tc_half_getLsbD {d : Int} (hd : d % 2 = 0) {k : Nat} (hk : k < 20) :
    (tc 20 (half d)).getLsbD k = (tc 21 d).getLsbD (k + 1) := by
  obtain ⟨e, rfl⟩ := Int.dvd_of_emod_eq_zero hd
  have hshift : tc 21 (2 * e) = BitVec.ofInt 21 e <<< 1 := by
    rw [tc, mul_comm, BitVec.ofInt_mul, BitVec.shiftLeft_eq_mul_twoPow]
    rfl
  have hk21 : k + 1 < 21 := Nat.succ_lt_succ hk
  rw [half_two_mul, hshift, tc, ← ofInt_getLsbD_low e (by decide) hk,
    ofInt_getLsbD_low e (n := 21) (by decide) (Nat.lt_of_succ_lt hk21)]
  simp [-BitVec.getLsbD_eq_getElem, hk21]

end Sys2Proof.Machine
end

section
/-! The operand tokens: the immediate grammar (spec/30_encoding.md R40; D7, D8) and stray characters (R31; D24).
Obligations O37 and O40. -/

namespace Sys2Proof.Machine

/-- `DIGIT` (R40). -/
def IsDigit (c : Char8) : Prop := 48 ≤ c.toNat ∧ c.toNat ≤ 57

/-- The decimal value of digits read after digits of value `acc`. -/
def decimalValue (acc : Nat) (digits : Token) : Nat := digits.foldl (fun n c => n * 10 + (c.toNat - 48)) acc

/-- `SIGN?` (R40). -/
def IsSign (sign : Token) : Prop := sign = [] ∨ sign = tokenOf ['-'] ∨ sign = tokenOf ['+']

/-- What an optional sign multiplies the value of the digits after it by. -/
def signFactor (sign : Token) : Int := if sign = tokenOf ['-'] then -1 else 1

/-! ## What `ParseImm` reads -/

theorem digitValue_eq_some_iff {c : Char8} {d : Nat} : digitValue c = some d ↔ IsDigit c ∧ d = c.toNat - 48 := by
  rw [digitValue, IsDigit, Option.ite_none_right_eq_some, Option.some_inj, eq_comm (a := d)]

theorem parseDigits_eq_some_iff {acc n : Nat} {cs : Token} :
    parseDigits acc cs = some n ↔ (∀ c ∈ cs, IsDigit c) ∧ n = decimalValue acc cs := by
  induction cs generalizing acc with
  | nil => simp [parseDigits, decimalValue, eq_comm]
  | cons c cs ih =>
    rw [List.forall_mem_cons, parseDigits]
    cases hc : digitValue c with
    | none =>
      have hnot : ¬ IsDigit c := fun h => Option.some_ne_none _ ((digitValue_eq_some_iff.2 ⟨h, rfl⟩).symm.trans hc)
      simp [hnot]
    | some d =>
      obtain ⟨hdigit, rfl⟩ := digitValue_eq_some_iff.1 hc
      simp [ih, hdigit, decimalValue]

theorem parseUnsigned_eq_some_iff {cs : Token} {n : Nat} :
    parseUnsigned cs = some n ↔ cs ≠ [] ∧ (∀ c ∈ cs, IsDigit c) ∧ n = decimalValue 0 cs := by
  cases cs with
  | nil => simp [parseUnsigned]
  | cons c cs => exact parseDigits_eq_some_iff.trans (and_iff_right (List.cons_ne_nil c cs)).symm

/-- A digit is no sign, so a token that begins with one is read without a sign. -/
theorem parseImm_of_digit {c : Char8} (cs : Token) (hc : IsDigit c) :
    parseImm (c :: cs) = (parseUnsigned (c :: cs)).map fun n : Nat => (n : Int) := by
  have hminus : c ≠ minusSign := by rintro rfl; exact absurd hc (by unfold IsDigit; decide)
  have hplus : c ≠ plusSign := by rintro rfl; exact absurd hc (by unfold IsDigit; decide)
  rw [parseImm, if_neg hminus, if_neg hplus]

/-- After a sign, or where digits begin the token, `ParseImm` reads the digits and applies the sign. -/
theorem parseImm_sign_append {sign digits : Token} (hsign : IsSign sign) (hdigit : ∃ c ∈ digits.head?, IsDigit c) :
    parseImm (sign ++ digits) = (parseUnsigned digits).map fun n : Nat => signFactor sign * n := by
  obtain ⟨c, hhead, hc⟩ := hdigit
  obtain ⟨cs, rfl⟩ := List.head?_eq_some_iff.1 hhead
  obtain rfl | rfl | rfl := hsign
  · simp [parseImm_of_digit cs hc, signFactor, tokenOf]
  · simp [parseImm, tokenOf, signFactor, minusSign]
  · simp [parseImm, tokenOf, signFactor, minusSign, plusSign]

/-- Every readable token is an optional sign before what `DIGIT+` reads. -/
theorem parseImm_eq_some_split {t : Token} {v : Int} (h : parseImm t = some v) :
    ∃ sign digits n, t = sign ++ digits ∧ IsSign sign ∧ parseUnsigned digits = some n ∧ v = signFactor sign * n := by
  cases t with
  | nil => cases h
  | cons c cs =>
    rw [parseImm] at h
    split at h
    · obtain ⟨n, hn, rfl⟩ := Option.map_eq_some_iff.1 h
      subst c
      exact ⟨tokenOf ['-'], cs, n, rfl, .inr (.inl rfl), hn, (neg_one_mul _).symm⟩
    split at h
    · obtain ⟨n, hn, rfl⟩ := Option.map_eq_some_iff.1 h
      subst c
      exact ⟨tokenOf ['+'], cs, n, rfl, .inr (.inr rfl), hn, (one_mul _).symm⟩
    · obtain ⟨n, hn, rfl⟩ := Option.map_eq_some_iff.1 h
      exact ⟨[], c :: cs, n, rfl, .inl rfl, hn, (one_mul _).symm⟩

/-- Settles O37: a readable token is split at its optional sign, and `DIGIT+` reads exactly the digit strings. -/
theorem immediateGrammar : Obligations.ImmediateGrammar := by
  intro t v
  constructor
  · intro h
    obtain ⟨sign, digits, n, ht, hsign, hn, hv⟩ := parseImm_eq_some_split h
    obtain ⟨hne, hdigits, rfl⟩ := parseUnsigned_eq_some_iff.1 hn
    exact ⟨sign, digits, ht, hsign, hne, hdigits, hv⟩
  · rintro ⟨sign, digits, rfl, hsign, hne, hdigits, rfl⟩
    have hhead : ∃ c ∈ digits.head?, IsDigit c :=
      ⟨digits.head hne, List.head?_eq_some_head hne, hdigits _ (List.head_mem hne)⟩
    rw [parseImm_sign_append hsign hhead, parseUnsigned_eq_some_iff.2 ⟨hne, hdigits, rfl⟩]
    rfl

/-! ## Stray characters (D24) -/

/-- The comma and the space. -/
def IsStray (c : Char8) : Prop := c = 0x2C#8 ∨ c = 0x20#8

theorem IsStray.not_mem_registerKey {c : Char8} (hc : IsStray c) : ∀ e ∈ registerRom, c ∉ e.key := by
  obtain rfl | rfl := hc <;> decide

theorem IsStray.not_mem_mnemonic {c : Char8} (hc : IsStray c) (mn : Mnemonic) : c ∉ mn.token := by
  obtain rfl | rfl := hc <;> cases mn <;> decide

theorem IsStray.not_mem_sign {c : Char8} (hc : IsStray c) {sign : Token} (hsign : IsSign sign) : c ∉ sign := by
  obtain rfl | rfl := hc <;> obtain rfl | rfl | rfl := hsign <;> decide

theorem IsStray.not_isDigit {c : Char8} (hc : IsStray c) : ¬ IsDigit c := by
  unfold IsDigit
  obtain rfl | rfl := hc <;> decide

/-- Settles O40: a stray character stands in no register key and no mnemonic, and is neither a sign nor a digit. -/
theorem strayCharactersMatchNothing : Obligations.StrayCharactersMatchNothing := by
  rintro s t c ⟨hreg, -⟩ hmem (hc : IsStray c)
  refine ⟨?register, ?immediate, ?mnemonic⟩
  case register =>
    rw [hreg, regResolve, Option.map_eq_none_iff, List.find?_eq_none]
    intro e he hkey
    exact hc.not_mem_registerKey e he (beq_iff_eq.1 hkey ▸ hmem)
  case immediate =>
    rw [Option.eq_none_iff_forall_ne_some]
    intro v hv
    obtain ⟨sign, digits, n, rfl, hsign, hn, -⟩ := parseImm_eq_some_split hv
    obtain ⟨-, hdigits, -⟩ := parseUnsigned_eq_some_iff.1 hn
    obtain hs | hd := List.mem_append.1 hmem
    · exact hc.not_mem_sign hsign hs
    · exact hc.not_isDigit (hdigits c hd)
  case mnemonic =>
    rintro mn rfl
    exact hc.not_mem_mnemonic mn hmem

end Sys2Proof.Machine
end

section
/-! The ports (spec/30_encoding.md R32): the response lines of a result, and the request lines of a token list.
Obligations O41 and O42. -/

namespace Sys2Proof.Machine

/-! ## The response -/

theorem rspPort_of_rsp {s : State} {o : Option Result} (h : s.rsp = o) : s.rspPort = o.map RspPort.ofResult :=
  congrArg (Option.map RspPort.ofResult) h

/-- Settles O41, result by result and error kind by error kind. -/
theorem responseLines : Obligations.ResponseLines := by
  intro s
  exact ⟨rspPort_of_rsp, rspPort_of_rsp, fun w => rspPort_of_rsp,
    fun k h => ⟨k.code, rspPort_of_rsp h, by cases k <;> rfl⟩⟩

/-! ## The lanes of the request port -/

@[simp] theorem laneLengths_length (lane n : Nat) (ts : List Token) : (laneLengths lane n ts).length = n := by
  induction n generalizing lane ts with
  | zero => rfl
  | succ n ih => cases ts <;> simp [laneLengths, ih]

@[simp] theorem padLanes_length (lane n : Nat) (ts : List Token) : (padLanes lane n ts).length = n := by
  induction n generalizing lane ts with
  | zero => rfl
  | succ n ih => simp [padLanes, ih]

theorem padToken_length (lane : Nat) {t : Token} (h : t.length ≤ Config.maxTokenChars) :
    (padToken lane t).length = Config.maxTokenChars := by
  simp [padToken, h]

/-- A lane read back at its token's length is the token. -/
theorem padToken_take (lane : Nat) (t : Token) : (padToken lane t).take t.length = t := List.take_left

/-- Every lane is as wide as the port where the tokens fit. -/
theorem length_of_mem_padLanes {lane n : Nat} {ts : List Token} (h : ∀ t ∈ ts, t.length ≤ Config.maxTokenChars) :
    ∀ l ∈ padLanes lane n ts, l.length = Config.maxTokenChars := by
  induction n generalizing lane ts with
  | zero => exact nofun
  | succ n ih =>
    have hhead : (ts.headD []).length ≤ Config.maxTokenChars := by
      cases ts with
      | nil => exact Nat.zero_le _
      | cons t ts => exact h t List.mem_cons_self
    rw [padLanes, List.forall_mem_cons]
    exact ⟨padToken_length lane hhead, ih fun t ht => h t (List.mem_of_mem_tail ht)⟩

/-- The lengths on the lanes of the tokens are the tokens'. -/
theorem laneLengths_take (lane : Nat) {n : Nat} {ts : List Token} (h : ts.length ≤ n) :
    (laneLengths lane n ts).take ts.length = ts.map List.length := by
  induction ts generalizing lane n with
  | nil => rfl
  | cons t ts ih =>
    obtain ⟨n, rfl⟩ := Nat.exists_eq_add_one_of_ne_zero (Nat.ne_zero_of_lt h)
    exact congrArg (t.length :: ·) (ih (lane + 1) (Nat.le_of_succ_le_succ h))

/-- Read back at their lengths, the lanes carry the tokens. -/
theorem zipWith_take_lanes (lane : Nat) {n : Nat} {ts : List Token} (h : ts.length ≤ n) :
    (List.zipWith (fun k l => l.take k) (laneLengths lane n ts) (padLanes lane n ts)).take ts.length = ts := by
  induction ts generalizing lane n with
  | nil => rfl
  | cons t ts ih =>
    obtain ⟨n, rfl⟩ := Nat.exists_eq_add_one_of_ne_zero (Nat.ne_zero_of_lt h)
    exact congrArg₂ List.cons (padToken_take lane t) (ih (lane + 1) (Nat.le_of_succ_le_succ h))

/-! ## Driving and sampling the lines -/

theorem withinBounds_iff {ts : List Token} :
    withinBounds ts = true ↔ ts.length ≤ Config.maxTokens ∧ ∀ t ∈ ts, t.length ≤ Config.maxTokenChars := by
  simp [withinBounds]

/-- The lines `ReqPort.drive` puts a token list on. -/
def driven (ts : List Token) : ReqPort :=
  ⟨true, ts.length, laneLengths 0 Config.maxTokens ts, padLanes 0 Config.maxTokens ts⟩

theorem drive_eq_some_iff {ts : List Token} {p : ReqPort} :
    ReqPort.drive ts = some p ↔ withinBounds ts = true ∧ driven ts = p := by
  rw [ReqPort.drive, Option.ite_none_right_eq_some, Option.some_inj]; rfl

theorem drive_eq_none_iff {ts : List Token} : ReqPort.drive ts = none ↔ withinBounds ts = false := by
  simp [ReqPort.drive]

theorem driven_tokens {ts : List Token} (h : ts.length ≤ Config.maxTokens) : (driven ts).tokens = ts :=
  zipWith_take_lanes 0 h

/-- The lines of a token list within the bounds are in the realisation's domain. -/
theorem driven_inDomain {ts : List Token} (h : withinBounds ts = true) : (driven ts).inDomain = true := by
  obtain ⟨hcount, hchars⟩ := withinBounds_iff.1 h
  have hlanes := length_of_mem_padLanes (lane := 0) (n := Config.maxTokens) hchars
  have hlengths := laneLengths_take 0 hcount
  simp only [ReqPort.inDomain, driven, hlengths, Bool.and_eq_true, List.all_eq_true, beq_iff_eq, decide_eq_true_eq,
    laneLengths_length, padLanes_length, List.forall_mem_map]
  exact ⟨⟨⟨⟨trivial, trivial⟩, hlanes⟩, decide_eq_true hcount⟩, hchars⟩

theorem sample_valid_inDomain (s : State) {p : ReqPort} (hv : p.valid = true) (hd : p.inDomain = true) :
    s.sample p = some (s.offer (some ⟨.dispatcher, p.tokens⟩)) := by simp [State.sample, hv, hd]

theorem sample_not_valid (s : State) {p : ReqPort} (hv : p.valid = false) : s.sample p = some (s.offer none) := by
  simp [State.sample, hv]

theorem sample_eq_none_iff (s : State) {p : ReqPort} :
    s.sample p = none ↔ p.valid = true ∧ p.inDomain = false := by
  unfold State.sample
  cases p.valid <;> cases p.inDomain <;> simp

/-- Settles O42: driven lines are in the realisation's domain and carry their tokens. -/
theorem requestPortCarriesTokens : Obligations.RequestPortCarriesTokens := by
  refine ⟨fun ts p s h => ?carried, fun ts => ?bounds, fun p s => ⟨sample_not_valid s, sample_eq_none_iff s⟩,
    Nat.le_add_left 5 _, Nat.le_add_left 8 _⟩
  case carried =>
    obtain ⟨hbounds, rfl⟩ := drive_eq_some_iff.1 h
    have htokens := driven_tokens (withinBounds_iff.1 hbounds).1
    exact ⟨htokens, (sample_valid_inDomain s rfl (driven_inDomain hbounds)).trans (by rw [htokens])⟩
  case bounds =>
    rw [drive_eq_none_iff, ← Bool.not_eq_true, withinBounds_iff, not_and_or]
    push Not
    rfl

end Sys2Proof.Machine
end

section
/-! The machine and the opcode table (spec/30_encoding.md R47, spec/60_exceptions.md R105): what each operation answers is
the word `encode` gives, or an error where it gives none. Obligation O48. -/

namespace Sys2Proof.Machine

/-- An instruction answers what its encoder does to its mnemonic and operands. -/
theorem answers_iff {i : Instr} {s : State} {r : Result} :
    Answers i s r ↔ runEncoder (mnemonicOf i).format s.regTable ((mnemonicOf i).token :: operandsOf i) = r := by
  rw [Answers, exec_eq_present]
  constructor
  · intro h
    injection h with h
    exact Option.some.inj (congrArg (·.rsp) h)
  · rintro rfl
    rfl

/-! ## The operations with two registers and an immediate -/

variable {mn : Mnemonic}

theorem registerImmediate_shape (h : mn.format = .registerImmediate) (s : State) :
    TwoRegisterImmediateShape mn.instr s fun rd rs1 v =>
      if mn.token = Mnemonic.srli.token then
        if inRange 0 31 v then .word (shiftWord (u5 v.toNat) (u5 rs1) (u5 rd)) else .error .invalidShiftAmount
      else if mn.token = Mnemonic.addi.token then .word (riWord (tc 12 v) (u5 rs1) 0b000 (u5 rd))
      else if mn.token = Mnemonic.andi.token then .word (riWord (tc 12 v) (u5 rs1) 0b111 (u5 rd))
      else .error .unsupportedInstruction := by
  simp only [TwoRegisterImmediateShape, answers_iff, mnemonicOf_instr, operandsOf_instr, h, runEncoder]
  exact ⟨fun ops hops => encRI_count (hops ∘ Nat.succ.inj), fun d a t => encRI_register,
    fun d a t r1 r2 => encRI_parse, fun d a t r1 r2 v => encRI_done⟩

theorem load_shape (h : mn.format = .load) {funct3 : BitVec 3} (hf : loadFunct3 mn.token = some funct3) (s : State) :
    TwoRegisterImmediateShape mn.instr s fun rd rs1 v =>
      if inRange lsImmMin lsImmMax v then .word (loadWord (tc 12 v) (u5 rs1) funct3 (u5 rd))
      else .error .immediateOutOfRange := by
  simp only [TwoRegisterImmediateShape, answers_iff, mnemonicOf_instr, operandsOf_instr, h, runEncoder]
  exact ⟨fun ops hops => encLoad_count (hops ∘ Nat.succ.inj), fun d a t => encLoad_register,
    fun d a t r1 r2 => encLoad_parse, fun d a t r1 r2 v h1 h2 hv => (encLoad_done h1 h2 hv).trans (by rw [hf])⟩

theorem store_shape (h : mn.format = .store) (s : State) :
    TwoRegisterImmediateShape mn.instr s fun rs2 rs1 v =>
      if inRange lsImmMin lsImmMax v then .word (storeWord (tc 12 v) (u5 rs2) (u5 rs1))
      else .error .immediateOutOfRange := by
  simp only [TwoRegisterImmediateShape, answers_iff, mnemonicOf_instr, operandsOf_instr, h, runEncoder]
  exact ⟨fun ops hops => encStore_count (hops ∘ Nat.succ.inj), fun d a t => encStore_register,
    fun d a t r1 r2 => encStore_parse, fun d a t r1 r2 v => encStore_done⟩

theorem branch_shape (h : mn.format = .branch) {funct3 : BitVec 3} (hf : branchFunct3 mn.token = some funct3)
    (s : State) :
    TwoRegisterImmediateShape mn.instr s fun rs1 rs2 v =>
      .word (branchWord (tc 12 v) (u5 rs2) (u5 rs1) funct3) := by
  simp only [TwoRegisterImmediateShape, answers_iff, mnemonicOf_instr, operandsOf_instr, h, runEncoder]
  exact ⟨fun ops hops => encBranch_count (hops ∘ Nat.succ.inj), fun d a t => encBranch_register,
    fun d a t r1 r2 => encBranch_parse, fun d a t r1 r2 v h1 h2 hv => (encBranch_done h1 h2 hv).trans (by rw [hf])⟩

/-! ## The result an encoded word stands for -/

/-- `r` is the result of an instruction whose word is `o`: the word, or an error where there is none. -/
def Presents : (o : Option Word) → (r : Result) → Prop
  | some w, r => r = .word w
  | none, r => ∃ k, r = .error k

/-- `i` completes with the word `o`, or with an error where there is none. -/
def AnswersWord (i : Instr) (s : State) (o : Option Word) : Prop :=
  ∃ r, Answers i s r ∧ Presents o r

theorem AnswersWord.error {i : Instr} {s : State} {k : ErrorKind} (h : Answers i s (.error k)) :
    AnswersWord i s none := ⟨_, h, k, rfl⟩

theorem AnswersWord.word {i : Instr} {s : State} {w : Word} (h : Answers i s (.word w)) :
    AnswersWord i s (some w) := ⟨_, h, rfl⟩

/-! ## The fields of each format, and the checks before them -/

variable {ops : List Token}

theorem fieldsRR_count (h : ops.length ≠ 3) : fieldsRR ops = none := by
  unfold fieldsRR; split
  · simp at h
  · rfl

theorem fieldsRRI_count {l1 l2 : Nat} {ok : Int → Bool} {place : Word → Word} (h : ops.length ≠ 3) :
    fieldsRRI l1 l2 ok place ops = none := by
  unfold fieldsRRI; split
  · simp at h
  · rfl

theorem fieldsJump_count (h : ops.length ≠ 2) : fieldsJump ops = none := by
  unfold fieldsJump; split
  · simp at h
  · rfl

/-- An operation that makes the checks of `TwoRegisterImmediateShape` and then answers the word with the operand bits
`fieldsRRI` places. -/
theorem TwoRegisterImmediateShape.answersWord {i : List Token → Instr} {s : State}
    {done : Fin 32 → Fin 32 → Int → Result} {l1 l2 : Nat} {ok : Int → Bool} {place : Word → Word} {pattern : Word}
    (h : TwoRegisterImmediateShape i s done) (hs : s.regTable = registerRom)
    (hdone : ∀ r1 r2 v, Presents
      (if ok v then some (pattern ||| (regAt r1 l1 ||| regAt r2 l2 ||| place (BitVec.ofInt 32 v))) else none)
      (done r1 r2 v)) :
    AnswersWord (i ops) s ((fieldsRRI l1 l2 ok place ops).map (pattern ||| ·)) := by
  obtain ⟨count, register, parse, finish⟩ := h
  rw [hs] at register parse finish
  by_cases hlen : ops.length = 3
  case neg => rw [fieldsRRI_count hlen]; exact .error (count ops hlen)
  obtain ⟨d, a, t, rfl⟩ := List.length_eq_three.1 hlen
  cases h1 : regResolve registerRom d with
  | none => simpa [fieldsRRI, h1] using AnswersWord.error (register d a t (.inl h1))
  | some r1 =>
  cases h2 : regResolve registerRom a with
  | none => simpa [fieldsRRI, h1, h2] using AnswersWord.error (register d a t (.inr h2))
  | some r2 =>
  cases hv : parseImm t with
  | none => simpa [fieldsRRI, h1, h2, hv] using AnswersWord.error (parse d a t r1 r2 h1 h2 hv)
  | some v =>
    refine ⟨_, finish d a t r1 r2 v h1 h2 hv, ?_⟩
    simpa [fieldsRRI, h1, h2, hv, apply_ite (Option.map (pattern ||| ·))] using hdone r1 r2 v

/-! ## Each format's operations answer the word of the opcode table -/

variable {s : State}

theorem registerImmediate_cases (h : mn.format = .registerImmediate) : mn = .addi ∨ mn = .andi ∨ mn = .srli := by
  cases mn <;> cases h <;> decide

theorem jump_cases (h : mn.format = .jump) : mn = .jal := by
  cases mn <;> cases h; rfl

theorem rrConstants_token (h : mn.format = .registerRegister) :
    ∃ f7 f3, rrConstants mn.token = some (f7, f3) ∧ (opcodePattern mn).1 = rrWord f7 0 0 f3 0 := by
  cases mn <;> cases h <;> exact ⟨_, _, rfl, rfl⟩

theorem loadFunct3_token (h : mn.format = .load) :
    ∃ f3, loadFunct3 mn.token = some f3 ∧ (opcodePattern mn).1 = loadWord 0 0 f3 0 := by
  cases mn <;> cases h <;> exact ⟨_, rfl, rfl⟩

theorem opcodePattern_store (h : mn.format = .store) : opcodePattern mn = opcodePattern .sw := by
  cases mn <;> cases h <;> rfl

theorem branchFunct3_token (h : mn.format = .branch) :
    ∃ f3, branchFunct3 mn.token = some f3 ∧ (opcodePattern mn).1 = branchWord 0 0 0 f3 := by
  cases mn <;> cases h <;> exact ⟨_, rfl, rfl⟩

/-- The word of a mnemonic with operands: the row's match value with the operand bits. -/
theorem encode_instr (mn : Mnemonic) (ops : List Token) :
    encode (mn.instr ops) = (operandBits mn ops).map ((opcodePattern mn).1 ||| ·) := by
  rw [encode, mnemonicOf_instr, operandsOf_instr]

theorem registerRegister_answersWord (h : mn.format = .registerRegister) (hs : s.regTable = registerRom) :
    AnswersWord (mn.instr ops) s (encode (mn.instr ops)) := by
  obtain ⟨f7, f3, hc, hp⟩ := rrConstants_token h
  rw [encode_instr, operandBits_rr h, hp]
  have answers {r : Result} (hr : encRR registerRom (mn.token :: ops) = r) : Answers (mn.instr ops) s r :=
    answers_iff.2 (by simpa [h, hs, runEncoder] using hr)
  by_cases hlen : ops.length = 3
  case neg => rw [fieldsRR_count hlen]; exact .error (answers (encRR_count (hlen ∘ Nat.succ.inj)))
  obtain ⟨d, a, b, rfl⟩ := List.length_eq_three.1 hlen
  cases h1 : regResolve registerRom d with
  | none => simpa [fieldsRR, h1] using AnswersWord.error (answers (encRR_register (.inl h1)))
  | some rd =>
  cases h2 : regResolve registerRom a with
  | none => simpa [fieldsRR, h1, h2] using AnswersWord.error (answers (encRR_register (.inr (.inl h2))))
  | some rs1 =>
  cases h3 : regResolve registerRom b with
  | none => simpa [fieldsRR, h1, h2, h3] using AnswersWord.error (answers (encRR_register (.inr (.inr h3))))
  | some rs2 =>
    simp only [fieldsRR, h1, h2, h3, Option.map_some, rrWord_split]
    exact .word (answers ((encRR_done h1 h2 h3).trans (by rw [hc])))

theorem registerImmediate_answersWord (h : mn.format = .registerImmediate) (hs : s.regTable = registerRom) :
    AnswersWord (mn.instr ops) s (encode (mn.instr ops)) := by
  have shape := registerImmediate_shape h s
  rw [encode_instr]
  obtain rfl | rfl | rfl := registerImmediate_cases h
  · have hp : (opcodePattern .addi).1 = riWord 0 0 0b000 0 := rfl
    rw [operandBits_addi, hp]
    exact shape.answersWord hs fun rd rs1 v => congrArg Result.word (riWord_split 0b000 rd rs1 v).symm
  · have hp : (opcodePattern .andi).1 = riWord 0 0 0b111 0 := rfl
    rw [operandBits_andi, hp]
    exact shape.answersWord hs fun rd rs1 v => congrArg Result.word (riWord_split 0b111 rd rs1 v).symm
  · rw [operandBits_srli]
    refine shape.answersWord hs fun rd rs1 v => ?_
    rw [if_pos rfl]
    split
    · exact congrArg Result.word (shiftWord_split rd rs1 (inRange_iff.1 ‹_›).1).symm
    · exact ⟨_, rfl⟩

theorem load_answersWord (h : mn.format = .load) (hs : s.regTable = registerRom) :
    AnswersWord (mn.instr ops) s (encode (mn.instr ops)) := by
  obtain ⟨f3, hf, hp⟩ := loadFunct3_token h
  rw [encode_instr, operandBits_load h, hp]
  refine (load_shape h hf s).answersWord hs fun rd rs1 v => ?_
  split
  · exact congrArg Result.word (loadWord_split f3 rd rs1 v).symm
  · exact ⟨_, rfl⟩

theorem store_answersWord (h : mn.format = .store) (hs : s.regTable = registerRom) :
    AnswersWord (mn.instr ops) s (encode (mn.instr ops)) := by
  rw [encode_instr, operandBits_store h, opcodePattern_store h]
  refine (store_shape h s).answersWord hs fun rs2 rs1 v => ?_
  split
  · exact congrArg Result.word (storeWord_split rs2 rs1 v).symm
  · exact ⟨_, rfl⟩

theorem branch_answersWord (h : mn.format = .branch) (hs : s.regTable = registerRom) :
    AnswersWord (mn.instr ops) s (encode (mn.instr ops)) := by
  obtain ⟨f3, hf, hp⟩ := branchFunct3_token h
  rw [encode_instr, operandBits_branch h, hp]
  exact (branch_shape h hf s).answersWord hs fun rs1 rs2 v =>
    congrArg Result.word (branchWord_split f3 rs1 rs2 v).symm

/-- R98: the word of JAL is the row's match value with the operand bits of the halved immediate. -/
theorem jal_answersWord (hs : s.regTable = registerRom) : AnswersWord (.jal ops) s (encode (.jal ops)) := by
  have hencode : encode (.jal ops) = (fieldsJump ops).map ((0x0000006F : Word) ||| ·) := rfl
  rw [hencode]
  have answers {r : Result} (hr : encJump registerRom (Mnemonic.jal.token :: ops) = r) : Answers (.jal ops) s r :=
    answers_iff.2 (hs ▸ hr)
  by_cases hlen : ops.length = 2
  case neg => rw [fieldsJump_count hlen]; exact .error (answers (encJump_count (hlen ∘ Nat.succ.inj)))
  obtain ⟨d, t, rfl⟩ := List.length_eq_two.1 hlen
  cases h1 : regResolve registerRom d with
  | none => simpa [fieldsJump, h1] using AnswersWord.error (answers (encJump_register h1))
  | some rd =>
  cases hv : parseImm t with
  | none => simpa [fieldsJump, h1, hv] using AnswersWord.error (answers (encJump_parse h1 hv))
  | some v =>
    have hdone := answers (encJump_done h1 hv)
    by_cases hr : inRange jalHMin jalHMax (half v) = true
    · rw [if_pos hr] at hdone
      simpa only [fieldsJump, h1, hv, if_pos hr, Option.map_some, jumpWord_split] using AnswersWord.word hdone
    · rw [if_neg hr] at hdone
      simpa only [fieldsJump, h1, hv, if_neg hr, Option.map_none] using AnswersWord.error hdone

/-- With the constant tables, each operation answers the word the opcode table gives it, or an error. -/
theorem instr_answersWord (mn : Mnemonic) (ops : List Token) (hs : s.regTable = registerRom) :
    AnswersWord (mn.instr ops) s (encode (mn.instr ops)) := by
  cases hf : mn.format with
  | registerRegister => exact registerRegister_answersWord hf hs
  | registerImmediate => exact registerImmediate_answersWord hf hs
  | load => exact load_answersWord hf hs
  | store => exact store_answersWord hf hs
  | branch => exact branch_answersWord hf hs
  | jump => exact jump_cases hf ▸ jal_answersWord hs

/-- An instruction is its mnemonic with its operands. -/
theorem instr_mnemonicOf (i : Instr) : (mnemonicOf i).instr (operandsOf i) = i := by cases i <;> rfl

theorem exec_answersWord (i : Instr) (hs : s.regTable = registerRom) : AnswersWord i s (encode i) :=
  instr_mnemonicOf i ▸ instr_answersWord (mnemonicOf i) (operandsOf i) hs

theorem answers_word_of_encode {i : Instr} {w : Word} (hs : s.regTable = registerRom) (h : encode i = some w) :
    Answers i s (.word w) := by
  obtain ⟨r, hanswers, hr⟩ := exec_answersWord i hs
  rw [h] at hr
  exact hr ▸ hanswers

theorem answers_error_of_encode {i : Instr} (hs : s.regTable = registerRom) (h : encode i = none) :
    ∃ k, Answers i s (.error k) := by
  obtain ⟨r, hanswers, hr⟩ := exec_answersWord i hs
  rw [h] at hr
  obtain ⟨k, rfl⟩ := hr
  exact ⟨k, hanswers⟩

/-! ## Well-formed instructions have a word -/

theorem flawRR_isNone (ops : List Token) : (flawRR ops).isNone = (fieldsRR ops).isSome := by
  by_cases hlen : ops.length = 3
  case neg => rw [fieldsRR_count hlen]; unfold flawRR; split <;> simp_all
  obtain ⟨d, a, b, rfl⟩ := List.length_eq_three.1 hlen
  rw [flawRR, fieldsRR]
  cases regResolve registerRom d <;> cases regResolve registerRom a <;> cases regResolve registerRom b <;> rfl

/-- Where the range flaw is that of the values `ok` refuses, no flaw means operand bits. -/
theorem flawRRI_isNone {range : Int → Option Flaw} {ok : Int → Bool} (h : ∀ v, (range v).isNone = ok v) (l1 l2 : Nat)
    (place : Word → Word) (ops : List Token) :
    (flawRRI range ops).isNone = (fieldsRRI l1 l2 ok place ops).isSome := by
  by_cases hlen : ops.length = 3
  case neg => rw [fieldsRRI_count hlen]; unfold flawRRI; split <;> simp_all
  obtain ⟨d, a, t, rfl⟩ := List.length_eq_three.1 hlen
  rw [flawRRI, fieldsRRI]
  cases regResolve registerRom d with
  | none => rfl
  | some r1 =>
  cases regResolve registerRom a with
  | none => rfl
  | some r2 =>
  cases parseImm t with
  | none => rfl
  | some v =>
    simp only [Option.isSome_some, Bool.and_self, if_true, h]
    cases ok v <;> rfl

theorem flawJump_isNone (ops : List Token) : (flawJump ops).isNone = (fieldsJump ops).isSome := by
  by_cases hlen : ops.length = 2
  case neg => rw [fieldsJump_count hlen]; unfold flawJump; split <;> simp_all
  obtain ⟨d, t, rfl⟩ := List.length_eq_two.1 hlen
  rw [flawJump, fieldsJump]
  cases regResolve registerRom d with
  | none => rfl
  | some rd =>
  cases parseImm t with
  | none => rfl
  | some v =>
    simp only [Option.isSome_some, if_true]
    cases inRange jalHMin jalHMax (half v) <;> rfl

theorem immediateRange_isNone (v : Int) :
    (if inRange lsImmMin lsImmMax v then none else some Flaw.immediateRange).isNone = inRange lsImmMin lsImmMax v := by
  cases inRange lsImmMin lsImmMax v <;> rfl

theorem shiftRange_isNone (v : Int) :
    (if Mnemonic.srli = .srli ∧ inRange 0 31 v = false then some Flaw.shiftRange else none).isNone =
      inRange 0 31 v := by
  cases inRange 0 31 v <;> rfl

/-- No flaw means operand bits, format by format. -/
theorem wellFormed_eq_isSome_operandBits (i : Instr) :
    i.wellFormed = (operandBits (mnemonicOf i) (operandsOf i)).isSome := by
  rw [Instr.wellFormed, Instr.flaw]
  cases hf : (mnemonicOf i).format with
  | registerRegister => rw [operandBits_rr hf]; exact flawRR_isNone _
  | registerImmediate =>
    obtain hmn | hmn | hmn := registerImmediate_cases hf
    · rw [hmn, operandBits_addi]; exact flawRRI_isNone (fun _ => congrArg Option.isNone (if_neg nofun)) _ _ _ _
    · rw [hmn, operandBits_andi]; exact flawRRI_isNone (fun _ => congrArg Option.isNone (if_neg nofun)) _ _ _ _
    · rw [hmn, operandBits_srli]; exact flawRRI_isNone shiftRange_isNone _ _ _ _
  | load => rw [operandBits_load hf]; exact flawRRI_isNone immediateRange_isNone _ _ _ _
  | store => rw [operandBits_store hf]; exact flawRRI_isNone immediateRange_isNone _ _ _ _
  | branch => rw [operandBits_branch hf]; exact flawRRI_isNone (fun _ => rfl) _ _ _ _
  | jump => rw [jump_cases hf, operandBits_jal]; exact flawJump_isNone _

theorem wellFormed_eq_isSome_encode (i : Instr) : i.wellFormed = (encode i).isSome := by
  rw [encode, Option.isSome_map, wellFormed_eq_isSome_operandBits]

theorem wellFormed_iff_exists_word {i : Instr} : i.wellFormed = true ↔ ∃ w, encode i = some w := by
  rw [wellFormed_eq_isSome_encode, Option.isSome_iff_exists]

/-- Settles O48, from what every operation answers and the agreement of the checks with the operand bits. -/
theorem execPresentsTheEncodedWord : Obligations.ExecPresentsTheEncodedWord := by
  rintro i s ⟨hreg, -⟩
  exact ⟨by rw [wellFormed_eq_isSome_encode], fun _ => answers_word_of_encode hreg, answers_error_of_encode hreg⟩

end Sys2Proof.Machine
end

section
/-! Words and instructions (spec/30_encoding.md R47 to R49): the decoder of words and `encode` are inverse on canonical
instructions, and the step after `withFetchWord` runs the word's instruction. Obligations O44 to O47, O50 and O51. -/

namespace Sys2Proof.Machine

variable {mn : Mnemonic} {w : Word} {i : Instr}

/-! ## The rows of the opcode table -/

/-- Two decodable rows whose match values agree where both masks look are one row. -/
theorem opcodePattern_compatible : ∀ m1 ∈ decodableMnemonics, ∀ m2 ∈ decodableMnemonics,
    (opcodePattern m1).1 &&& (opcodePattern m2).2 = (opcodePattern m2).1 &&& (opcodePattern m1).2 → m1 = m2 := by
  decide

/-- Settles O47: where both masks look, the word has both match values. -/
theorem opcodeRowsAreDisjoint : Obligations.OpcodeRowsAreDisjoint := by
  intro w m1 m2 hm1 hm2 h1 h2
  refine opcodePattern_compatible m1 hm1 m2 hm2 ?_
  rw [← matchesRow_iff.1 h1, ← matchesRow_iff.1 h2, BitVec.and_assoc, BitVec.and_assoc,
    BitVec.and_comm (opcodePattern m1).2]

/-- What the decoder answers is the operation of a row the word carries, with the word's operands. -/
theorem decodeWord_eq_ok (h : decodeWord w = .ok i) :
    ∃ mn ∈ decodableMnemonics, matchesRow w mn = true ∧ i = mn.instr (wordOperands mn w) := by
  unfold decodeWord at h
  split at h
  · rename_i mn hfind
    injection h with h
    exact ⟨mn, List.mem_of_find?_eq_some hfind, List.find?_some hfind, h.symm⟩
  · cases h

/-- A word that carries a decodable row is decoded to that row's operation. -/
theorem decodeWord_of_matchesRow (hmem : mn ∈ decodableMnemonics) (hrow : matchesRow w mn = true) :
    decodeWord w = .ok (mn.instr (wordOperands mn w)) := by
  cases hfind : decodableMnemonics.find? (matchesRow w) with
  | none => exact absurd hrow (List.find?_eq_none.1 hfind mn hmem)
  | some mn' =>
    have hmn : mn' = mn :=
      opcodeRowsAreDisjoint w mn' mn (List.mem_of_find?_eq_some hfind) hmem (List.find?_some hfind) hrow
    rw [decodeWord, hfind, hmn]

/-! ## The operands and the fixed bits of a word, format by format -/

theorem wordOperands_rr (h : mn.format = .registerRegister) (w : Word) :
    wordOperands mn w = [regToken (rdField w), regToken (rs1Field w), regToken (rs2Field w)] := by
  cases mn <;> cases h <;> rfl

theorem wordOperands_load (h : mn.format = .load) (w : Word) :
    wordOperands mn w = [regToken (rdField w), regToken (rs1Field w), immToken (immField w).toInt] := by
  cases mn <;> cases h <;> rfl

theorem wordOperands_store (h : mn.format = .store) (w : Word) :
    wordOperands mn w = [regToken (rs2Field w), regToken (rs1Field w), immToken (storeField w).toInt] := by
  cases mn <;> cases h <;> rfl

theorem wordOperands_branch (h : mn.format = .branch) (w : Word) :
    wordOperands mn w = [regToken (rs1Field w), regToken (rs2Field w), immToken (branchField w).toInt] := by
  cases mn <;> cases h <;> rfl

theorem wordOperands_addi (w : Word) :
    wordOperands .addi w = [regToken (rdField w), regToken (rs1Field w), immToken (immField w).toInt] := rfl

theorem wordOperands_andi (w : Word) :
    wordOperands .andi w = [regToken (rdField w), regToken (rs1Field w), immToken (immField w).toInt] := rfl

theorem wordOperands_srli (w : Word) :
    wordOperands .srli w = [regToken (rdField w), regToken (rs1Field w), immToken (rs2Field w).toNat] := rfl

theorem wordOperands_jal (w : Word) :
    wordOperands .jal w = [regToken (rdField w), immToken (2 * (jumpField w).toInt)] := rfl

theorem opcodeMask_rr (h : mn.format = .registerRegister) : (opcodePattern mn).2 = 0xFE00707F#32 := by
  cases mn <;> cases h <;> rfl

theorem opcodeMask_funct3 (h : mn.format = .load ∨ mn.format = .store ∨ mn.format = .branch) :
    (opcodePattern mn).2 = 0x0000707F#32 := by
  obtain h | h | h := h <;> cases mn <;> cases h <;> rfl

/-! ## The operands of a word, encoded again -/

theorem fieldsRR_regToken (rd rs1 rs2 : BitVec 5) :
    fieldsRR [regToken rd, regToken rs1, regToken rs2] =
      some (regAt rs2.toFin 20 ||| regAt rs1.toFin 15 ||| regAt rd.toFin 7) := by
  simp only [fieldsRR, regResolve_regToken]

/-- Two register names and an immediate the format takes. -/
theorem fieldsRRI_regToken {l1 l2 : Nat} {ok : Int → Bool} {place : Word → Word} (r1 r2 : BitVec 5) {v : Int}
    (h : ok v = true) :
    fieldsRRI l1 l2 ok place [regToken r1, regToken r2, immToken v] =
      some (regAt r1.toFin l1 ||| regAt r2.toFin l2 ||| place (BitVec.ofInt 32 v)) := by
  simp only [fieldsRRI, regResolve_regToken, parseImm_immToken, h, if_true]

/-- Every 12-bit field is the value of an immediate a Load or a Store takes. -/
theorem inRange_toInt (v : BitVec 12) : inRange lsImmMin lsImmMax v.toInt = true :=
  inRange_iff.2 ⟨v.le_toInt, Int.le_of_lt_add_one v.toInt_lt⟩

/-- Every 5-bit field is a shift amount SRLI takes. -/
theorem inRange_toNat (v : BitVec 5) : inRange 0 31 v.toNat = true := by
  rw [inRange_iff]; omega

/-- Every shift amount is the value of an immediate a 12-bit field represents. -/
theorem inRange_shamt (v : BitVec 5) : inRange lsImmMin lsImmMax v.toNat = true := by
  rw [inRange_iff, lsImmMin, lsImmMax]; omega

/-- Every 20-bit field is the value of a half a Jump takes. -/
theorem inRange_toInt_jump (v : BitVec 20) : inRange jalHMin jalHMax v.toInt = true :=
  inRange_iff.2 ⟨v.le_toInt, Int.le_of_lt_add_one v.toInt_lt⟩

theorem fieldsJump_regToken (rd : BitVec 5) (v : BitVec 20) :
    fieldsJump [regToken rd, immToken (2 * v.toInt)] =
      some (regAt rd.toFin 7 ||| immAt (BitVec.ofInt 32 v.toInt) 19 1 31 ||| immAt (BitVec.ofInt 32 v.toInt) 0 10 21 |||
        immAt (BitVec.ofInt 32 v.toInt) 10 1 20 ||| immAt (BitVec.ofInt 32 v.toInt) 11 8 12) := by
  simp only [fieldsJump, regResolve_regToken, parseImm_immToken, half_two_mul, inRange_toInt_jump, if_true]

/-- A word that carries a row's fixed bits, and is those bits and the operand bits of `ops`, is the word of `ops`. -/
theorem encode_of_rebuild {ops : List Token} {bits : Word} (hrow : matchesRow w mn = true)
    (hops : operandBits mn ops = some bits) (hw : w &&& (opcodePattern mn).2 ||| bits = w) :
    encode (mn.instr ops) = some w := by
  rw [encode_instr, hops, Option.map_some, ← matchesRow_iff.1 hrow, hw]

/-- The row's fixed bits with the bits of the word's own operands are the word. -/
theorem encode_wordOperands (hrow : matchesRow w mn = true) :
    encode (mn.instr (wordOperands mn w)) = some w := by
  cases hf : mn.format with
  | registerRegister =>
    refine encode_of_rebuild hrow ?_ (by rw [opcodeMask_rr hf]; exact rebuild_rr w)
    rw [operandBits_rr hf, wordOperands_rr hf, fieldsRR_regToken]
  | registerImmediate =>
    obtain rfl | rfl | rfl := registerImmediate_cases hf
    · exact encode_of_rebuild hrow ((operandBits_addi _).trans (fieldsRRI_regToken _ _ rfl)) (rebuild_imm w)
    · exact encode_of_rebuild hrow ((operandBits_andi _).trans (fieldsRRI_regToken _ _ rfl)) (rebuild_imm w)
    · exact encode_of_rebuild hrow ((operandBits_srli _).trans (fieldsRRI_regToken _ _ (inRange_toNat _)))
        (rebuild_shift w)
  | load =>
    refine encode_of_rebuild hrow ?_ (by rw [opcodeMask_funct3 (.inl hf)]; exact rebuild_imm w)
    rw [operandBits_load hf, wordOperands_load hf, fieldsRRI_regToken _ _ (inRange_toInt _)]
  | store =>
    refine encode_of_rebuild hrow ?_ (by rw [opcodeMask_funct3 (.inr (.inl hf))]; exact rebuild_store w)
    rw [operandBits_store hf, wordOperands_store hf, fieldsRRI_regToken _ _ (inRange_toInt _)]
  | branch =>
    refine encode_of_rebuild hrow ?_ (by rw [opcodeMask_funct3 (.inr (.inr hf))]; exact rebuild_branch w)
    rw [operandBits_branch hf, wordOperands_branch hf, fieldsRRI_regToken _ _ rfl]
  | jump =>
    obtain rfl := jump_cases hf
    exact encode_of_rebuild hrow ((operandBits_jal _).trans (fieldsJump_regToken _ _)) (rebuild_jump w)

/-! ## Canonical instructions -/

/-- A canonical immediate is the decoder's spelling of a value the field represents. -/
theorem canonicalImm_iff {ok : Int → Bool} {t : Token} :
    canonicalImm ok t = true ↔ ∃ v, t = immToken v ∧ ok v = true := by
  unfold canonicalImm
  constructor
  · intro h
    split at h
    · rename_i v _
      simp only [Bool.and_eq_true, beq_iff_eq] at h
      exact ⟨v, h⟩
    · cases h
  · rintro ⟨v, rfl, hv⟩
    simp [parseImm_immToken, hv]

theorem wellFormed_of_canonical (h : canonical i = true) :
    i.wellFormed = true ∧ mnemonicOf i ∈ decodableMnemonics := by
  rw [canonical, Bool.and_eq_true, Bool.and_eq_true, List.contains_iff_mem] at h
  exact h.1

theorem canonical_rr (h : (mnemonicOf i).format = .registerRegister) :
    canonical i = true ↔ i.wellFormed = true ∧ mnemonicOf i ∈ decodableMnemonics := by
  simp [canonical, h]

theorem canonical_jump (h : (mnemonicOf i).format = .jump) {d t : Token} (hops : operandsOf i = [d, t]) :
    canonical i = true ↔ (i.wellFormed = true ∧ mnemonicOf i ∈ decodableMnemonics) ∧
      canonicalImm (fun v => v % 2 == 0) t = true := by
  simp [canonical, h, hops]

theorem canonical_imm (hrr : (mnemonicOf i).format ≠ .registerRegister) (hj : (mnemonicOf i).format ≠ .jump)
    {d a t : Token} (hops : operandsOf i = [d, a, t]) :
    canonical i = true ↔ (i.wellFormed = true ∧ mnemonicOf i ∈ decodableMnemonics) ∧
      canonicalImm (inRange lsImmMin lsImmMax) t = true := by
  rw [canonical, hops]
  cases hf : (mnemonicOf i).format <;> simp_all

/-- The immediate of a word's operands is one its 12-bit field represents. -/
theorem wordOperands_imm (hrr : mn.format ≠ .registerRegister) (hj : mn.format ≠ .jump) (w : Word) :
    ∃ d a v, wordOperands mn w = [d, a, immToken v] ∧ inRange lsImmMin lsImmMax v = true := by
  cases hf : mn.format with
  | registerRegister => exact absurd hf hrr
  | jump => exact absurd hf hj
  | registerImmediate =>
    obtain rfl | rfl | rfl := registerImmediate_cases hf
    · exact ⟨_, _, _, rfl, inRange_toInt _⟩
    · exact ⟨_, _, _, rfl, inRange_toInt _⟩
    · exact ⟨_, _, _, rfl, inRange_shamt _⟩
  | load => exact ⟨_, _, _, wordOperands_load hf w, inRange_toInt _⟩
  | store => exact ⟨_, _, _, wordOperands_store hf w, inRange_toInt _⟩
  | branch => exact ⟨_, _, _, wordOperands_branch hf w, inRange_toInt _⟩

/-- The operands the decoder writes are canonical. -/
theorem canonical_wordOperands (hmem : mn ∈ decodableMnemonics) (hrow : matchesRow w mn = true) :
    canonical (mn.instr (wordOperands mn w)) = true := by
  have hbase : (mn.instr (wordOperands mn w)).wellFormed = true ∧
      mnemonicOf (mn.instr (wordOperands mn w)) ∈ decodableMnemonics :=
    ⟨wellFormed_iff_exists_word.2 ⟨w, encode_wordOperands hrow⟩, (mnemonicOf_instr mn _).symm ▸ hmem⟩
  by_cases hrr : mn.format = .registerRegister
  · exact (canonical_rr (by rwa [mnemonicOf_instr])).2 hbase
  by_cases hj : mn.format = .jump
  · obtain rfl := jump_cases hj
    exact (canonical_jump rfl rfl).2 ⟨hbase, canonicalImm_iff.2 ⟨_, rfl, by simp⟩⟩
  · obtain ⟨d, a, v, hops, hv⟩ := wordOperands_imm hrr hj w
    exact (canonical_imm (by rwa [mnemonicOf_instr]) (by rwa [mnemonicOf_instr])
      ((operandsOf_instr mn _).trans hops)).2 ⟨hbase, canonicalImm_iff.2 ⟨v, rfl, hv⟩⟩

/-- Settles O46: the decoded operation is a row's, whose fixed bits the word carries, with the word's own operands. -/
theorem decodedWordsReencode : Obligations.DecodedWordsReencode := by
  intro w i h
  obtain ⟨mn, hmem, hrow, rfl⟩ := decodeWord_eq_ok h
  exact ⟨canonical_wordOperands hmem hrow, encode_wordOperands hrow⟩

/-! ## Encoded words -/

/-- With the constant tables the encoder of an instruction with a word answers that word. -/
theorem runEncoder_of_encode (h : encode i = some w) :
    runEncoder (mnemonicOf i).format registerRom ((mnemonicOf i).token :: operandsOf i) = .word w :=
  answers_iff.1 (answers_word_of_encode State.reset_regTable h)

/-- The mnemonics one encoder cannot tell apart have one row. -/
theorem opcodePattern_eq_of_token (f : FormatClass) : ∀ m1 ∈ f.mnemonics, ∀ m2 ∈ f.mnemonics,
    m1.token = m2.token ∨ f = .store ∨ f = .jump → opcodePattern m1 = opcodePattern m2 := by
  cases f <;> decide

theorem mem_mnemonics_format (mn : Mnemonic) : mn ∈ mn.format.mnemonics := by cases mn <;> decide

/-- Each mnemonic of an encoder has its own spelling. -/
theorem token_injOn (f : FormatClass) : ∀ m1 ∈ f.mnemonics, ∀ m2 ∈ f.mnemonics, m1.token = m2.token → m1 = m2 := by
  cases f <;> decide

/-- An encoded word carries the fixed bits of its own instruction's row. -/
theorem matchesRow_of_encode (h : encode i = some w) : matchesRow w (mnemonicOf i) = true := by
  obtain ⟨mn, hmem, hhead, hrow⟩ := runEncoder_matchesRow (runEncoder_of_encode h)
  have hpattern := opcodePattern_eq_of_token _ _ (mem_mnemonics_format (mnemonicOf i)) _ hmem
    (hhead.imp_left Option.some.inj)
  rwa [matchesRow_iff, hpattern, ← matchesRow_iff]

/-- Every mnemonic shares its row with a decodable one: `SB` and `SH` with `SW` (log 4). -/
theorem exists_decodable_row (mn : Mnemonic) : ∃ mn' ∈ decodableMnemonics, opcodePattern mn' = opcodePattern mn := by
  cases mn <;> decide

/-- Settles O45: the word carries the fixed bits of a decodable row, so it is decoded to that row's operation. -/
theorem encodedWordsDecode : Obligations.EncodedWordsDecode := by
  intro i w h
  obtain ⟨mn, hmem, hpattern⟩ := exists_decodable_row (mnemonicOf i)
  have hrow : matchesRow w mn = true := by
    rw [matchesRow_iff, hpattern, ← matchesRow_iff]
    exact matchesRow_of_encode h
  exact ⟨_, decodeWord_of_matchesRow hmem hrow, canonical_wordOperands hmem hrow, encode_wordOperands hrow⟩

/-! ## The operands of an encoded canonical instruction -/

/-- A 12-bit field reads back as the value of the canonical token it was built from. -/
theorem immToken_tc {t : Token} {v : Int} (hparse : parseImm t = some v)
    (ht : canonicalImm (inRange lsImmMin lsImmMax) t = true) : immToken (tc 12 v).toInt = t := by
  obtain ⟨v', rfl, hv⟩ := canonicalImm_iff.1 ht
  obtain rfl : v' = v := Option.some.inj ((parseImm_immToken v').symm.trans hparse)
  rw [tc_toInt_of_inRange hv]

/-- A shift amount reads back as the value of the canonical token it was built from. -/
theorem immToken_shamt {t : Token} {v : Int} (hparse : parseImm t = some v) (hv : inRange 0 31 v = true)
    (ht : canonicalImm (inRange lsImmMin lsImmMax) t = true) : immToken (u5 v.toNat).toNat = t := by
  obtain ⟨v', rfl, -⟩ := canonicalImm_iff.1 ht
  obtain rfl : v' = v := Option.some.inj ((parseImm_immToken v').symm.trans hparse)
  obtain ⟨hlo, hhi⟩ := inRange_iff.1 hv
  rw [u5, BitVec.toNat_ofNat, Nat.mod_eq_of_lt (by omega), Int.toNat_of_nonneg hlo]

/-- Twice a 20-bit field is the value of the canonical, even token whose half it was built from. -/
theorem immToken_tc_half {t : Token} {v : Int} (hparse : parseImm t = some v)
    (hv : inRange jalHMin jalHMax (half v) = true) (ht : canonicalImm (fun v => v % 2 == 0) t = true) :
    immToken (2 * (tc 20 (half v)).toInt) = t := by
  obtain ⟨v', rfl, heven⟩ := canonicalImm_iff.1 ht
  obtain rfl : v' = v := Option.some.inj ((parseImm_immToken v').symm.trans hparse)
  rw [tc_toInt_of_inRange_jump hv, half, Int.mul_tdiv_cancel' (Int.dvd_of_emod_eq_zero (beq_iff_eq.1 heven))]

theorem wordOperands_encRR (hf : (mnemonicOf i).format = .registerRegister)
    (h : encRR registerRom ((mnemonicOf i).token :: operandsOf i) = .word w) :
    wordOperands (mnemonicOf i) w = operandsOf i := by
  obtain ⟨m, d, a, b, rd, rs1, rs2, f7, f3, htokens, hd, ha, hb, -, rfl⟩ := encRR_word h
  injection htokens with _ hops
  rw [wordOperands_rr hf, hops, rrWord_rdField, rrWord_rs1Field, rrWord_rs2Field, regToken_of_resolve hd,
    regToken_of_resolve ha, regToken_of_resolve hb]

theorem wordOperands_encRI (hf : (mnemonicOf i).format = .registerImmediate) (hc : canonical i = true)
    (h : encRI registerRom ((mnemonicOf i).token :: operandsOf i) = .word w) :
    wordOperands (mnemonicOf i) w = operandsOf i := by
  obtain ⟨m, d, a, t, rd, rs1, v, htokens, hd, ha, hv, hword⟩ := encRI_word h
  injection htokens with hm hops
  obtain ⟨-, ht⟩ := (canonical_imm (by simp [hf]) (by simp [hf]) hops).1 hc
  have own {mn : Mnemonic} (hmem : mn ∈ FormatClass.registerImmediate.mnemonics) (hmn : m = mn.token) :
      mnemonicOf i = mn :=
    token_injOn .registerImmediate _ (hf ▸ mem_mnemonics_format _) _ hmem (hm.trans hmn)
  obtain ⟨hmn, hr, rfl⟩ | ⟨hmn, rfl⟩ | ⟨hmn, rfl⟩ := hword
  · rw [own (by decide) hmn, wordOperands_srli, hops, shiftWord_rdField, shiftWord_rs1Field, shiftWord_rs2Field,
      regToken_of_resolve hd, regToken_of_resolve ha, immToken_shamt hv hr ht]
  · rw [own (by decide) hmn, wordOperands_addi, hops, riWord_rdField, riWord_rs1Field, riWord_immField,
      regToken_of_resolve hd, regToken_of_resolve ha, immToken_tc hv ht]
  · rw [own (by decide) hmn, wordOperands_andi, hops, riWord_rdField, riWord_rs1Field, riWord_immField,
      regToken_of_resolve hd, regToken_of_resolve ha, immToken_tc hv ht]

theorem wordOperands_encLoad (hf : (mnemonicOf i).format = .load) (hc : canonical i = true)
    (h : encLoad registerRom ((mnemonicOf i).token :: operandsOf i) = .word w) :
    wordOperands (mnemonicOf i) w = operandsOf i := by
  obtain ⟨m, d, a, t, rd, rs1, v, f3, htokens, hd, ha, hv, -, -, rfl⟩ := encLoad_word h
  injection htokens with _ hops
  obtain ⟨-, ht⟩ := (canonical_imm (by simp [hf]) (by simp [hf]) hops).1 hc
  rw [wordOperands_load hf, hops, loadWord_rdField, loadWord_rs1Field, loadWord_immField, regToken_of_resolve hd,
    regToken_of_resolve ha, immToken_tc hv ht]

theorem wordOperands_encStore (hf : (mnemonicOf i).format = .store) (hc : canonical i = true)
    (h : encStore registerRom ((mnemonicOf i).token :: operandsOf i) = .word w) :
    wordOperands (mnemonicOf i) w = operandsOf i := by
  obtain ⟨m, b, a, t, rs2, rs1, v, htokens, hb, ha, hv, -, rfl⟩ := encStore_word h
  injection htokens with _ hops
  obtain ⟨-, ht⟩ := (canonical_imm (by simp [hf]) (by simp [hf]) hops).1 hc
  rw [wordOperands_store hf, hops, storeWord_rs2Field, storeWord_rs1Field, storeWord_storeField,
    regToken_of_resolve hb, regToken_of_resolve ha, immToken_tc hv ht]

theorem wordOperands_encBranch (hf : (mnemonicOf i).format = .branch) (hc : canonical i = true)
    (h : encBranch registerRom ((mnemonicOf i).token :: operandsOf i) = .word w) :
    wordOperands (mnemonicOf i) w = operandsOf i := by
  obtain ⟨m, a, b, t, rs1, rs2, v, f3, htokens, ha, hb, hv, -, rfl⟩ := encBranch_word h
  injection htokens with _ hops
  obtain ⟨-, ht⟩ := (canonical_imm (by simp [hf]) (by simp [hf]) hops).1 hc
  rw [wordOperands_branch hf, hops, branchWord_rs1Field, branchWord_rs2Field, branchWord_branchField,
    regToken_of_resolve ha, regToken_of_resolve hb, immToken_tc hv ht]

theorem wordOperands_encJump (hf : (mnemonicOf i).format = .jump) (hc : canonical i = true)
    (h : encJump registerRom ((mnemonicOf i).token :: operandsOf i) = .word w) :
    wordOperands (mnemonicOf i) w = operandsOf i := by
  obtain ⟨m, d, t, rd, v, htokens, hd, hv, hr, rfl⟩ := encJump_word h
  injection htokens with _ hops
  obtain ⟨-, ht⟩ := (canonical_jump hf hops).1 hc
  rw [jump_cases hf, wordOperands_jal, hops, jumpWord_rdField, jumpWord_jumpField, regToken_of_resolve hd,
    immToken_tc_half hv hr ht]

/-- The word of a canonical instruction has the instruction's own operands. -/
theorem wordOperands_of_encode (hc : canonical i = true) (h : encode i = some w) :
    wordOperands (mnemonicOf i) w = operandsOf i := by
  have hrun := runEncoder_of_encode h
  cases hf : (mnemonicOf i).format with
  | registerRegister => rw [hf] at hrun; exact wordOperands_encRR hf hrun
  | registerImmediate => rw [hf] at hrun; exact wordOperands_encRI hf hc hrun
  | load => rw [hf] at hrun; exact wordOperands_encLoad hf hc hrun
  | store => rw [hf] at hrun; exact wordOperands_encStore hf hc hrun
  | branch => rw [hf] at hrun; exact wordOperands_encBranch hf hc hrun
  | jump => rw [hf] at hrun; exact wordOperands_encJump hf hc hrun

/-- Settles O44: the word carries the fixed bits of the instruction's row and has the instruction's operands. -/
theorem decodeEncodeRoundTrip : Obligations.DecodeEncodeRoundTrip := by
  intro i hc
  obtain ⟨hwf, hmem⟩ := wellFormed_of_canonical hc
  obtain ⟨w, hw⟩ := wellFormed_iff_exists_word.1 hwf
  refine ⟨w, hw, ?_⟩
  rw [decodeWord_of_matchesRow hmem (matchesRow_of_encode hw), wordOperands_of_encode hc hw, instr_mnemonicOf]

/-! ## Words written out -/

/-- Settles O50, by running the decoder on the six words. -/
theorem printedWordsDecode : Obligations.PrintedWordsDecode := by
  unfold Obligations.PrintedWordsDecode
  decide

/-! ## The step that runs a table word (log 5) -/

/-- R11: a dispatch row binds its mnemonic to the mnemonic's own encoder. -/
theorem dispatchLookup_format {row : DispatchRow} (h : dispatchLookup dispatchRom mn.token = some row) :
    row.format = mn.format := by
  have hall : ∀ row ∈ dispatchLookup dispatchRom mn.token, row.format = mn.format := by cases mn <;> decide
  exact hall row h

/-- The request made for an instruction asks for that instruction. -/
theorem decodeRequest_requestOf (i : Instr) : decodeRequest dispatchRom (requestOf i) = .instr i := by
  have hown := decodeAt_own (mnemonicOf i) (operandsOf i)
  rw [instr_mnemonicOf] at hown
  cases hrow : dispatchLookup dispatchRom (mnemonicOf i).token with
  | none => simpa [decodeRequest, requestOf, hrow] using hown
  | some row => simpa [decodeRequest, requestOf, hrow, decodeDispatch, dispatchLookup_format hrow] using hown

theorem decodeTableWord_eq_some {n : Nat} (hn : n < 2 ^ 32) (h : decodeTableWord 32 n = some i) :
    decodeWord (BitVec.ofNat 32 n) = .ok i := by
  rw [decodeTableWord, if_pos le_rfl, Nat.mod_eq_of_lt hn] at h
  split at h
  · rename_i j hj
    rw [hj, Option.some.inj h]
  · cases h

/-- Settles O51: the request presented decodes to the instruction, whose word is the table word. -/
theorem fetchWordRunsItsInstruction : Obligations.FetchWordRunsItsInstruction := by
  intro s n i hn h
  have hpresent : s.withFetchWord 32 n = { s with
      regTable := registerRom, dispatchTable := dispatchRom, request := some (requestOf i), resetIn := false } := by
    rw [State.withFetchWord, State.presentWord, h]
  have hstep : step (s.withFetchWord 32 n) = exec i { s with
      regTable := registerRom, dispatchTable := dispatchRom, request := none, resetIn := false } := by
    rw [hpresent, step_serves rfl ((State.tablesBuilt_iff _).2 ⟨rfl, rfl⟩) rfl, serve]
    simp only [State.accept_dispatchTable, decodeRequest_requestOf]
    rfl
  obtain ⟨-, hword⟩ := decodedWordsReencode _ _ (decodeTableWord_eq_some hn h)
  exact ⟨hstep, _, hstep.trans (answers_word_of_encode rfl hword), rfl, rfl⟩

end Sys2Proof.Machine
end

section
/-! The Branch and the Jump permutation in the words presented (spec/30_encoding.md R45, R46). Obligations O30 and O32. -/

namespace Sys2Proof.Machine

variable {w : Word}

/-- The word an instruction presents is its encoder's. -/
theorem runEncoder_of_exec {i : Instr} {s t : State} (h : exec i s = .next t) (hw : t.rsp = some (.word w)) :
    runEncoder (mnemonicOf i).format s.regTable ((mnemonicOf i).token :: operandsOf i) = .word w := by
  cases (exec_eq_present i s).symm.trans h
  exact Option.some.inj hw

/-- A Branch word holds the field of the immediate's value. -/
theorem encBranch_word_of_parse {table : List RegEntry} {m a b imm : Token} {d : Int}
    (h : encBranch table [m, a, b, imm] = .word w) (hd : parseImm imm = some d) :
    ∃ rs2 rs1 f3, w = branchWord (tc 12 d) rs2 rs1 f3 := by
  obtain ⟨_, _, _, _, rs1, rs2, v, f3, htokens, -, -, hv, -, rfl⟩ := encBranch_word h
  cases htokens
  cases hd.symm.trans hv
  exact ⟨_, _, _, rfl⟩

/-- A Jump word holds the field of the immediate's half. -/
theorem encJump_word_of_parse {table : List RegEntry} {m a imm : Token} {d : Int}
    (h : encJump table [m, a, imm] = .word w) (hd : parseImm imm = some d) :
    ∃ rd, w = jumpWord (tc 20 (half d)) rd := by
  obtain ⟨_, _, _, rd, v, htokens, -, hv, -, rfl⟩ := encJump_word h
  cases htokens
  cases hd.symm.trans hv
  exact ⟨_, rfl⟩

/-- Settles O30, bit by bit in the Branch layout of the encoder's word. -/
theorem branchPermutation : Obligations.BranchPermutation := by
  intro i hi s t a b imm d w hexec hw hd
  obtain ⟨hformat, hops⟩ :
      (mnemonicOf (i [a, b, imm])).format = .branch ∧ operandsOf (i [a, b, imm]) = [a, b, imm] := by
    fin_cases hi <;> exact ⟨rfl, rfl⟩
  have hrun := runEncoder_of_exec hexec hw
  rw [hformat, hops] at hrun
  obtain ⟨rs2, rs1, f3, rfl⟩ := encBranch_word_of_parse hrun hd
  refine ⟨?_, ?_, ?_, ?_, ?_, ?_, ?_, ?_, ?_, ?_, ?_, ?_, (branchWord_branchField _ f3 rs2 rs1).symm⟩
  all_goals
    simp only [branchWord, branchHi7, branchLo5, BitVec.getLsbD_append]
    simp

theorem jumpWord_bits30to21 (v : BitVec 20) (rd : BitVec 5) :
    (jumpWord v rd).extractLsb' 21 10 = v.extractLsb' 0 10 := by
  apply BitVec.eq_of_getLsbD_eq
  intro i hi
  simp only [jumpWord, jumpHi20, BitVec.getLsbD_extractLsb', BitVec.getLsbD_append]
  interval_cases i <;> simp

theorem jumpWord_bits19to12 (v : BitVec 20) (rd : BitVec 5) :
    (jumpWord v rd).extractLsb' 12 8 = v.extractLsb' 11 8 := by
  apply BitVec.eq_of_getLsbD_eq
  intro i hi
  simp only [jumpWord, jumpHi20, BitVec.getLsbD_extractLsb', BitVec.getLsbD_append]
  interval_cases i <;> simp

/-- Settles O32, from the Jump layout of the encoder's word and the halving of an even displacement. -/
theorem jumpPermutation : Obligations.JumpPermutation := by
  intro s t a imm d w hexec hw hd
  obtain ⟨rd, rfl⟩ := encJump_word_of_parse (m := Mnemonic.jal.token) (runEncoder_of_exec hexec hw) hd
  refine ⟨?_, jumpWord_bits30to21 _ rd, ?_, jumpWord_bits19to12 _ rd, (jumpWord_jumpField _ rd).symm,
    fun heven k hk => tc_half_getLsbD heven hk⟩
  all_goals
    simp only [jumpWord, jumpHi20, BitVec.getLsbD_append]
    simp

end Sys2Proof.Machine
end

section
/-! The register table (spec/40_register_table.md): the canonical spelling of an index, the tokens that resolve, and the
fields built from them. Obligations O6 and O7. -/

namespace Sys2Proof.Machine

theorem natToken_of_lt_ten {n : Nat} (h : n < 10) : natToken n = [BitVec.ofNat 8 (48 + n)] := by
  rw [natToken, decDigits, if_pos h]

theorem natToken_of_ten_le {n : Nat} (hlo : 10 ≤ n) (hhi : n < 100) :
    natToken n = [BitVec.ofNat 8 (48 + n / 10), BitVec.ofNat 8 (48 + n % 10)] := by
  have hlog : 1 ≤ n.log2 := (Nat.le_log2 (by omega)).2 (by omega)
  obtain ⟨fuel, hfuel⟩ := Nat.exists_eq_add_of_le' hlog
  rw [natToken, hfuel, decDigits, if_neg (by omega), decDigits, if_pos (by omega)]
  rfl

/-- The field of an index is the index in plain binary (R53). -/
@[simp] theorem toNat_u5 (n : Fin 32) : (u5 n).toNat = n.val := by
  rw [u5, BitVec.toNat_ofNat, Nat.mod_eq_of_lt n.isLt]

/-- `key(N)` (R50): the name of a register has one digit below 10 and two from 10 on. -/
theorem regToken_u5 (n : Fin 32) :
    regToken (u5 n) = if n.val < 10 then [0x78, BitVec.ofNat 8 (48 + n.val)]
      else [0x78, BitVec.ofNat 8 (48 + n.val / 10), BitVec.ofNat 8 (48 + n.val % 10)] := by
  rw [regToken, toNat_u5]
  split
  next hlt => rw [natToken_of_lt_ten hlt]
  next hge => rw [natToken_of_ten_le (by omega) (by omega)]

/-- A token resolves to an index exactly when it is the decoder's spelling of the index's field. -/
theorem regResolve_eq_some_iff {t : Token} {n : Fin 32} :
    regResolve registerRom t = some n ↔ t = regToken (u5 n) := by
  constructor
  · intro h
    exact (regToken_of_resolve h).symm
  · rintro rfl
    rw [regResolve_regToken, Option.some_inj, Fin.ext_iff]
    exact toNat_u5 n

/-- Settles O6: the tokens that resolve to an index are the decoder's one spelling of it. -/
theorem regResolveIsExact : Obligations.RegResolveIsExact := by
  rintro s ⟨hreg, -⟩ t n
  rw [hreg, regResolve_eq_some_iff, regToken_u5]

/-- Settles O7: the first clause is O6 at the key itself; two names of one field are both the field's one spelling. -/
theorem registerFieldsArePlainBinary : Obligations.RegisterFieldsArePlainBinary := by
  intro s hs
  refine ⟨?key, ?distinct⟩
  case key =>
    intro n
    exact ⟨(regResolveIsExact s hs _ n).2 rfl, toNat_u5 n⟩
  case distinct =>
    obtain ⟨hreg, -⟩ := hs
    rw [hreg]
    intro a b i j ha hb hne hfield
    have hspelling : a = b :=
      calc a = regToken (u5 i) := (regToken_of_resolve ha).symm
        _ = regToken (u5 j) := by rw [hfield]
        _ = b := regToken_of_resolve hb
    exact hne hspelling

end Sys2Proof.Machine
end

section
/-! The dispatcher (spec/41_dispatcher.md): what the step of a ready block answers to the request presented, which
requests it refuses, and which mnemonics the encoders refuse (R63). Obligations O11 to O14, O16 to O19 and O36. -/

namespace Sys2Proof.Machine

variable {s : State} {r : Request} {m : Token} {ops : List Token} {mn : Mnemonic}

/-! ## The step of a ready block on a request -/

theorem Ready.step_eq_serve (h : Ready s) (hr : s.request = some r) : step s = serve r s.accept := by
  obtain ⟨hout, htables⟩ := h
  exact step_serves hout (s.tablesBuilt_iff.2 htables) hr

/-- The step of a ready block answers the request presented with the result the constant tables give it. -/
theorem Ready.stepAnswers_resultOf (h : Ready s) (hr : s.request = some r) : StepAnswers s (resultOf r) :=
  (h.step_eq_serve hr).trans (serve_eq_present_resultOf (s := s.accept) h.2 r)

/-- A step answers with one result. -/
theorem StepAnswers.unique {r1 r2 : Result} (h1 : StepAnswers s r1) (h2 : StepAnswers s r2) : r1 = r2 := by
  injection h1.symm.trans h2 with h
  exact Option.some.inj (congrArg (·.rsp) h)

/-- R63: an encoder driven directly answers a function of the full token list and the block's RegisterTable. -/
theorem Ready.stepAnswers_encoder {f : FormatClass} {tokens : List Token} (h : Ready s)
    (hr : s.request = some ⟨.encoder f, tokens⟩) : StepAnswers s (runEncoder f s.regTable tokens) := by
  obtain ⟨hreg, -⟩ := h.2
  rw [hreg]
  exact h.stepAnswers_resultOf hr

/-- Settles O11, by the branch of `serve` for a decoded instruction. -/
theorem stepRunsDecodedInstruction : Obligations.StepRunsDecodedInstruction := by
  intro s r i h hr hdecode
  rw [h.step_eq_serve hr, serve, State.accept_dispatchTable, hdecode]
  rfl

/-- Settles O13: at the dispatcher the result the constant tables give is `encode(tokens)`. -/
theorem dispatcherTransactionIsEncode : Obligations.DispatcherTransactionIsEncode :=
  fun _ _ h hr => h.stepAnswers_resultOf hr

/-- Settles O18: a ready block answers the request's result, and every case of a step has a next state. -/
theorem everyRequestIsAnswered : Obligations.EveryRequestIsAnswered := by
  refine ⟨fun s r h hr => ⟨resultOf r, h.stepAnswers_resultOf hr⟩, fun s => ?total⟩
  case total =>
    obtain ⟨-, hs⟩ | ⟨-, -, hs⟩ | ⟨-, -, -, hs⟩ | ⟨r, -, -, -, hs⟩ := step_cases s
    · exact ⟨_, hs⟩
    · exact ⟨_, hs⟩
    · exact ⟨_, hs⟩
    · obtain ⟨res, hres⟩ := serve_presents r s.accept
      exact ⟨_, hs.trans hres⟩

/-! ## Mnemonics with a dispatch row, and the others -/

/-- R56: every wired mnemonic has a dispatch row. -/
theorem dispatchLookup_isSome_of_wired :
    ∀ mn ∈ wiredMnemonics, (dispatchLookup dispatchRom mn.token).isSome = true := by decide

/-- R11, R56: every dispatch row binds a wired mnemonic to that mnemonic's own encoder. -/
theorem exists_wired_of_mem_dispatchRom :
    ∀ row ∈ dispatchRom, ∃ mn ∈ wiredMnemonics, row.mnemonic = mn.token ∧ row.format = mn.format := by decide

/-- A first token is refused as unknown, or it spells a wired mnemonic and the mnemonic's own encoder answers. -/
theorem encodeTokens_cons_cases (m : Token) (ops : List Token) :
    encodeTokens (m :: ops) = .error .unknownInstruction ∨
    ∃ mn ∈ wiredMnemonics, m = mn.token ∧
      encodeTokens (m :: ops) = runEncoder mn.format registerRom (mn.token :: ops) := by
  cases hrow : dispatchLookup dispatchRom m with
  | none => exact .inl (encodeTokens_of_dispatchLookup_none ops hrow)
  | some row =>
    obtain ⟨mn, hwired, hspell, hformat⟩ := exists_wired_of_mem_dispatchRom row (List.mem_of_find?_eq_some hrow)
    obtain rfl : row.mnemonic = m :=
      beq_iff_eq.1 (List.find?_some (p := fun r : DispatchRow => r.mnemonic == m) hrow)
    refine .inr ⟨mn, hwired, hspell, ?_⟩
    rw [encodeTokens_of_dispatchLookup_some ops hrow, hformat, hspell]

theorem encodeTokens_of_unwired (ops : List Token) (h : m ∉ wiredMnemonics.map Mnemonic.token) :
    encodeTokens (m :: ops) = .error .unknownInstruction := by
  obtain hunknown | ⟨mn, hwired, rfl, -⟩ := encodeTokens_cons_cases m ops
  · exact hunknown
  · exact absurd (List.mem_map_of_mem hwired) h

/-- Settles O16: the 17 spellings are those of the wired mnemonics. -/
theorem unknownMnemonicIsRefusedFirst : Obligations.UnknownMnemonicIsRefusedFirst := by
  intro s m ops h hr hm
  rw [← encodeTokens_of_unwired ops hm]
  exact dispatcherTransactionIsEncode s _ h hr

/-- Settles O17: none of the three is wired, and the Branch encoder driven directly answers by itself. -/
theorem unwiredBranchMnemonics : Obligations.UnwiredBranchMnemonics := by
  intro s ops h m hm
  have unwired : ∀ m ∈ [tokenOf ['B', 'E', 'Q'], tokenOf ['B', 'N', 'E'], tokenOf ['B', 'L', 'T']],
      m ∉ wiredMnemonics.map Mnemonic.token := by decide
  exact ⟨fun hr => unknownMnemonicIsRefusedFirst s m ops h hr (unwired m hm), fun hr => h.stepAnswers_encoder hr⟩

/-- The request made for an instruction of a wired mnemonic enters at the dispatcher. -/
theorem requestOf_wired (h : mn ∈ wiredMnemonics) (ops : List Token) :
    requestOf (mn.instr ops) = ⟨.dispatcher, mn.token :: ops⟩ := by
  simp [requestOf, dispatchLookup_isSome_of_wired mn h]

/-- Settles O14: at either entry the request decodes to the mnemonic's instruction. -/
theorem mnemonicsRunTheirOperation : Obligations.MnemonicsRunTheirOperation := by
  intro s mn ops h
  refine ⟨fun hwired hr => ?atDispatcher, fun hr => ?atEncoder⟩
  case atDispatcher =>
    obtain ⟨-, hdisp⟩ := h.2
    refine stepRunsDecodedInstruction s _ _ h hr ?_
    rw [hdisp, ← requestOf_wired hwired]
    exact decodeRequest_requestOf _
  case atEncoder => exact stepRunsDecodedInstruction s _ _ h hr (decodeAt_own mn ops)

/-! ## `Empty` -/

/-- An encoder never answers `Empty` to its own mnemonic: it answers a word or an error. -/
theorem runEncoder_own_ne_empty (mn : Mnemonic) (ops : List Token) :
    runEncoder mn.format registerRom (mn.token :: ops) ≠ .empty := by
  obtain ⟨r, hanswers, hr⟩ := instr_answersWord (s := State.reset) mn ops State.reset_regTable
  rw [answers_iff, mnemonicOf_instr, operandsOf_instr, State.reset_regTable] at hanswers
  rw [hanswers]
  rintro rfl
  cases hword : encode (mn.instr ops) with
  | none => rw [hword] at hr; obtain ⟨k, hk⟩ := hr; cases hk
  | some w => rw [hword] at hr; cases hr

theorem encodeTokens_cons_ne_empty (m : Token) (ops : List Token) : encodeTokens (m :: ops) ≠ .empty := by
  obtain h | ⟨mn, -, -, h⟩ := encodeTokens_cons_cases m ops
  · rw [h]; nofun
  · rw [h]; exact runEncoder_own_ne_empty mn ops

/-- Settles O12: a list with a first token is refused as unknown or answered by an encoder, and the empty string spells
no mnemonic. -/
theorem emptyRequestGivesEmpty : Obligations.EmptyRequestGivesEmpty := by
  intro s tokens h hr
  have hanswers := dispatcherTransactionIsEncode s tokens h hr
  cases tokens with
  | nil => exact ⟨fun _ => hanswers, fun hne => absurd rfl hne, nofun⟩
  | cons m ops =>
    refine ⟨nofun, fun _ hempty => encodeTokens_cons_ne_empty m ops (hanswers.unique hempty), ?emptyString⟩
    case emptyString =>
      rintro ops' ⟨⟩
      exact unknownMnemonicIsRefusedFirst s [] ops h hr (by decide)

/-! ## `UnsupportedInstruction` -/

theorem rrConstants_eq_none_iff :
    rrConstants m = none ↔ m ∉ FormatClass.registerRegister.mnemonics.map Mnemonic.token := by
  simp [rrConstants, FormatClass.mnemonics, ite_eq_iff]

theorem loadFunct3_eq_none_iff : loadFunct3 m = none ↔ m ∉ FormatClass.load.mnemonics.map Mnemonic.token := by
  simp [loadFunct3, FormatClass.mnemonics, ite_eq_iff]

theorem branchFunct3_eq_none_iff : branchFunct3 m = none ↔ m ∉ FormatClass.branch.mnemonics.map Mnemonic.token := by
  simp [branchFunct3, FormatClass.mnemonics, ite_eq_iff]

/-! What follows from `UnsupportedInstruction`, encoder by encoder: four of them look `tokens[0]` up (D13), the
Store and the Jump encoder do not. -/

variable {table : List RegEntry}

theorem encRR_unsupported (h : encRR table (m :: ops) = .error .unsupportedInstruction) : rrConstants m = none := by
  unfold encRR at h
  repeat' split at h
  all_goals simp_all [raise]

theorem encRI_unsupported (h : encRI table (m :: ops) = .error .unsupportedInstruction) :
    m ∉ FormatClass.registerImmediate.mnemonics.map Mnemonic.token := by
  unfold encRI at h
  repeat' split at h
  all_goals simp_all [raise, FormatClass.mnemonics]

theorem encLoad_unsupported (h : encLoad table (m :: ops) = .error .unsupportedInstruction) : loadFunct3 m = none := by
  unfold encLoad at h
  repeat' split at h
  all_goals simp_all [raise]

theorem encStore_ne_unsupported (tokens : List Token) : encStore table tokens ≠ .error .unsupportedInstruction := by
  intro h
  unfold encStore at h
  repeat' split at h
  all_goals simp_all [raise]

theorem encBranch_unsupported (h : encBranch table (m :: ops) = .error .unsupportedInstruction) :
    branchFunct3 m = none := by
  unfold encBranch at h
  repeat' split at h
  all_goals simp_all [raise]

theorem encJump_ne_unsupported (tokens : List Token) : encJump table tokens ≠ .error .unsupportedInstruction := by
  intro h
  unfold encJump at h
  repeat' split at h
  all_goals simp_all [raise]

/-- R63: an encoder raises `UnsupportedInstruction` only for a mnemonic outside its set. -/
theorem not_mem_mnemonics_of_unsupported {f : FormatClass}
    (h : runEncoder f table (m :: ops) = .error .unsupportedInstruction) :
    m ∉ f.mnemonics.map Mnemonic.token := by
  cases f with
  | registerRegister => exact rrConstants_eq_none_iff.1 (encRR_unsupported h)
  | registerImmediate => exact encRI_unsupported h
  | load => exact loadFunct3_eq_none_iff.1 (encLoad_unsupported h)
  | store => exact absurd h (encStore_ne_unsupported _)
  | branch => exact branchFunct3_eq_none_iff.1 (encBranch_unsupported h)
  | jump => exact absurd h (encJump_ne_unsupported _)

theorem encodeTokens_ne_unsupported (tokens : List Token) :
    encodeTokens tokens ≠ .error .unsupportedInstruction := by
  cases tokens with
  | nil => nofun
  | cons m ops =>
    obtain h | ⟨mn, -, -, h⟩ := encodeTokens_cons_cases m ops
    · rw [h]; nofun
    · rw [h]
      exact fun hunsupported =>
        not_mem_mnemonics_of_unsupported hunsupported (List.mem_map_of_mem (mem_mnemonics_format mn))

/-- Settles O19: the dispatcher hands an encoder only mnemonics of the encoder's own set. -/
theorem unsupportedNotReachableThroughDispatcher : Obligations.UnsupportedNotReachableThroughDispatcher := by
  intro s t tokens h hr hstep
  cases (dispatcherTransactionIsEncode s tokens h hr).symm.trans hstep
  exact encodeTokens_ne_unsupported tokens ∘ Option.some.inj

/-- Settles O36: past the parse the three encoders look the mnemonic up, the other two never read it. -/
theorem otherMnemonicsAtTheOtherEncoders : Obligations.OtherMnemonicsAtTheOtherEncoders := by
  intro s m d a b t rd ra rb v h hd ha hb hv
  refine ⟨fun hm hr => ?registerRegister, fun hm hlo hhi hr => ?load, fun hm hr => ?branch,
    fun hr => h.stepAnswers_encoder hr, fun hr => h.stepAnswers_encoder hr⟩
  case registerRegister =>
    have hrun : encRR s.regTable [m, d, a, b] = .error .unsupportedInstruction := by
      rw [encRR_done hd ha hb, rrConstants_eq_none_iff.2 hm]
    exact hrun ▸ h.stepAnswers_encoder hr
  case load =>
    have hrun : encLoad s.regTable [m, d, a, t] = .error .unsupportedInstruction := by
      rw [encLoad_done hd ha hv, if_pos (inRange_iff.2 ⟨hlo, hhi⟩), loadFunct3_eq_none_iff.2 hm]
    exact hrun ▸ h.stepAnswers_encoder hr
  case branch =>
    have hrun : encBranch s.regTable [m, d, a, t] = .error .unsupportedInstruction := by
      rw [encBranch_done hd ha hv, branchFunct3_eq_none_iff.2 hm]
    exact hrun ▸ h.stepAnswers_encoder hr

end Sys2Proof.Machine
end

section
/-! The RegisterRegister operations (spec/42_register_register.md R65 to R69): their checks in order, their word, and SUB
beside ADD. Obligations O22 and O23. -/

namespace Sys2Proof.Machine

/-- R65: an operation of the encoder with constants `f7` and `f3` makes the checks in order, and its word has the match
value that its constants give with the register fields 0. -/
theorem registerRegister_shape {mn : Mnemonic} {f7 : BitVec 7} {f3 : BitVec 3} (h : mn.format = .registerRegister)
    (hc : rrConstants mn.token = some (f7, f3)) : RegisterRegisterShape mn.instr f7 f3 (rrWord f7 0 0 f3 0) := by
  intro s
  simp only [answers_iff, mnemonicOf_instr, operandsOf_instr, h, runEncoder]
  refine ⟨fun ops hops => encRR_count (hops ∘ Nat.succ.inj), fun d a b => encRR_register, ?word⟩
  case word =>
    intro d a b rd rs1 rs2 hd ha hb
    exact ⟨rrWord f7 (u5 rs2) (u5 rs1) f3 (u5 rd), (encRR_done hd ha hb).trans (by rw [hc]), rfl,
      rrWord_and_mask f7 f3 (u5 rs2) (u5 rs1) (u5 rd)⟩

/-- Settles O22: the three operations have the shape of the encoder, with their own constants. -/
theorem registerRegisterOperations : Obligations.RegisterRegisterOperations :=
  ⟨registerRegister_shape (mn := .add) rfl rfl, registerRegister_shape (mn := .and) rfl rfl,
    registerRegister_shape (mn := .or) rfl rfl⟩

/-- The `funct7` constants 0000000 and 0100000 differ in word bit 30 only. -/
theorem rrWord_xor_bit30 (f3 : BitVec 3) (rs2 rs1 rd : BitVec 5) :
    rrWord 0b0000000#7 rs2 rs1 f3 rd ^^^ 0x40000000#32 = rrWord 0b0100000#7 rs2 rs1 f3 rd := by
  apply BitVec.eq_of_getLsbD_eq
  intro i hi
  simp only [rrWord, BitVec.getLsbD_append, BitVec.getLsbD_xor]
  interval_cases i <;> simp

/-- R67: where the encoder answers a word for ADD, it answers the word with bit 30 flipped for SUB. -/
theorem encRR_sub_of_add {table : List RegEntry} {ops : List Token} {w : Word}
    (h : encRR table (Mnemonic.add.token :: ops) = .word w) :
    encRR table (Mnemonic.sub.token :: ops) = .word (w ^^^ 0x40000000#32) := by
  obtain ⟨_, d, a, b, rd, rs1, rs2, f7, f3, htokens, hd, ha, hb, hc, rfl⟩ := encRR_word h
  have hadd : rrConstants Mnemonic.add.token = some (0b0000000#7, 0b000#3) := rfl
  have hsub : rrConstants Mnemonic.sub.token = some (0b0100000#7, 0b000#3) := rfl
  cases htokens
  cases hadd.symm.trans hc
  rw [encRR_done hd ha hb, hsub, rrWord_xor_bit30]

/-- Settles O23: SUB has the shape of the encoder, and what it presents is the encoder's answer beside that for ADD. -/
theorem subOperation : Obligations.SubOperation := by
  refine ⟨registerRegister_shape (mn := .sub) rfl rfl, fun s t u ops w hadd hw hsub => ?_⟩
  cases (exec_eq_present (.sub ops) s).symm.trans hsub
  exact congrArg some (encRR_sub_of_add (runEncoder_of_exec hadd hw))

end Sys2Proof.Machine
end

section
/-! The RegisterImmediate operations (spec/43_register_immediate.md R73 to R77): ADDI and ANDI, SRLI, and a foreign
mnemonic at their encoder. Obligations O24, O25 and O35. -/

namespace Sys2Proof.Machine

/-- A shape is that of any result past the parse with the same values. -/
theorem TwoRegisterImmediateShape.congr {i : List Token → Instr} {s : State}
    {done done' : Fin 32 → Fin 32 → Int → Result} (h : TwoRegisterImmediateShape i s done)
    (hdone : ∀ r1 r2 v, done r1 r2 v = done' r1 r2 v) : TwoRegisterImmediateShape i s done' := by
  obtain rfl : done = done' := funext fun r1 => funext fun r2 => funext (hdone r1 r2)
  exact h

/-! ## ADDI and ANDI -/

/-- D9: the 12-bit field holds the immediate modulo 4096. -/
theorem tc_eq_ofNat_emod (v : Int) : tc 12 v = BitVec.ofNat 12 (v % 4096).toNat := by
  have hv : v % 4096 = (tc 12 v).toNat := (tc_toNat 12 v).symm
  rw [hv, Int.toNat_natCast, BitVec.ofNat_toNat, BitVec.setWidth_eq]

/-- R74, R75: an operation that puts any readable immediate into the word has the shape of ADDI, and its word has the
match value that its function code gives with the operand fields 0. -/
theorem addiShape_of_word {mn : Mnemonic} {f3 : BitVec 3}
    (h : ∀ s, TwoRegisterImmediateShape mn.instr s fun rd rs1 v => .word (riWord (tc 12 v) (u5 rs1) f3 (u5 rd))) :
    AddiShape mn.instr f3 (riWord 0 0 f3 0) :=
  ⟨fun s => (h s).congr fun rd rs1 v => by rw [tc_eq_ofNat_emod, riWord],
    fun imm12 rs1 rd => riWord_and_mask imm12 f3 (u5 rs1) (u5 rd)⟩

/-- Settles O24: both are the encoder's branches without a range check. -/
theorem addiAndiOperations : Obligations.AddiAndiOperations := by
  refine ⟨addiShape_of_word (mn := .addi) fun s => ?addi, addiShape_of_word (mn := .andi) fun s => ?andi⟩
  case addi =>
    exact (registerImmediate_shape rfl s).congr fun rd rs1 v => (if_neg (by decide)).trans (if_pos rfl)
  case andi =>
    exact (registerImmediate_shape rfl s).congr fun rd rs1 v =>
      (if_neg (by decide)).trans ((if_neg (by decide)).trans (if_pos rfl))

/-! ## SRLI -/

/-- R76: "the word never has a bit set in 31:25". -/
theorem shiftWord_hi7 (shamt rs1 rd : BitVec 5) : (shiftWord shamt rs1 rd).extractLsb' 25 7 = 0 := by
  apply BitVec.eq_of_getLsbD_eq
  intro i hi
  simp only [shiftWord, BitVec.getLsbD_append, BitVec.getLsbD_extractLsb']
  interval_cases i <;> simp

/-- Settles O25: SRLI is the encoder's branch with the range check of the amount. -/
theorem srliOperation : Obligations.SrliOperation := by
  refine ⟨fun s => (registerImmediate_shape (mn := .srli) rfl s).congr fun rd rs1 v => ?amount,
    fun shamt rs1 rd => ⟨shiftWord_and_mask shamt (u5 rs1) (u5 rd), shiftWord_hi7 shamt (u5 rs1) (u5 rd)⟩, ?signs⟩
  case amount =>
    rw [if_pos rfl]
    simp only [inRange_iff, shiftWord, u5]
  case signs => decide

/-! ## A foreign mnemonic -/

/-- R77: past the parse the encoder refuses a mnemonic outside its set, whatever the immediate's value. -/
theorem encRI_foreign {table : List RegEntry} {m d a t : Token} {r1 r2 : Fin 32} {v : Int}
    (hm : m ∉ FormatClass.registerImmediate.mnemonics.map Mnemonic.token) (h1 : regResolve table d = some r1)
    (h2 : regResolve table a = some r2) (hv : parseImm t = some v) :
    encRI table [m, d, a, t] = .error .unsupportedInstruction := by
  obtain ⟨haddi, hm⟩ := List.ne_and_not_mem_of_not_mem_cons hm
  obtain ⟨handi, hm⟩ := List.ne_and_not_mem_of_not_mem_cons hm
  rw [encRI_done h1 h2 hv, if_neg (List.ne_of_not_mem_cons hm), if_neg haddi, if_neg handi]

/-- Settles O35: the step answers what the encoder does, check by check, and the dispatcher refuses a mnemonic without a
row. -/
theorem otherMnemonicsAtRegisterImmediate : Obligations.OtherMnemonicsAtRegisterImmediate := by
  intro s m ops h hm
  refine ⟨fun hr => ?atEncoder, fun hr hrow => ?atDispatcher⟩
  case atEncoder =>
    have answers {res : Result} (hrun : encRI s.regTable (m :: ops) = res) : StepAnswers s res :=
      hrun ▸ h.stepAnswers_encoder hr
    refine ⟨fun hops => answers (encRI_count (hops ∘ Nat.succ.inj)), ?_⟩
    rintro d a t rfl
    refine ⟨fun hmiss => answers (encRI_register hmiss), fun hd ha => ?_⟩
    obtain ⟨rd, hd⟩ := Option.isSome_iff_exists.1 hd
    obtain ⟨rs1, ha⟩ := Option.isSome_iff_exists.1 ha
    refine ⟨fun hv => answers (encRI_parse hd ha hv), fun hv => ?_⟩
    obtain ⟨v, hv⟩ := Option.isSome_iff_exists.1 hv
    exact answers (encRI_foreign hm hd ha hv)
  case atDispatcher =>
    obtain ⟨-, hdisp⟩ := h.2
    rw [← encodeTokens_of_dispatchLookup_none ops (hdisp ▸ hrow)]
    exact dispatcherTransactionIsEncode s _ h hr

end Sys2Proof.Machine
end

section
/-! The Load operations (spec/44_load.md R80 to R85): their checks in order, the 12-bit range, their word. Obligation
O26. -/

namespace Sys2Proof.Machine

/-- R80: an operation of the encoder with function code `f3` makes the checks in order, and its word has the match value
that its function code gives with the operand fields 0. -/
theorem loadShape_of_funct3 {mn : Mnemonic} {f3 : BitVec 3} (h : mn.format = .load)
    (hf : loadFunct3 mn.token = some f3) : LoadShape mn.instr f3 (loadWord 0 0 f3 0) := by
  refine ⟨fun s => (load_shape h hf s).congr fun rd rs1 v => ?done,
    fun imm12 rs1 rd => loadWord_and_mask imm12 f3 (u5 rs1) (u5 rd)⟩
  case done => simp only [inRange_iff, lsImmMin, lsImmMax, loadWord, tc]

/-- Settles O26: the five operations have the shape of the encoder, with their own function codes. -/
theorem loadOperations : Obligations.LoadOperations :=
  ⟨loadShape_of_funct3 (mn := .lb) rfl rfl, loadShape_of_funct3 (mn := .lh) rfl rfl,
    loadShape_of_funct3 (mn := .lw) rfl rfl, loadShape_of_funct3 (mn := .lbu) rfl rfl,
    loadShape_of_funct3 (mn := .lhu) rfl rfl⟩

end Sys2Proof.Machine
end

section
/-! The Store operations (spec/45_store.md R87 to R90): their checks in order, the 12-bit range, their word with its
split immediate, and the order of the two registers. Obligations O27 and O28. -/

namespace Sys2Proof.Machine

/-! ## The shape of a store -/

/-- The layout R37 with the two parts of the immediate given apart. -/
theorem storeWord_append (hi : BitVec 7) (lo rs2 rs1 : BitVec 5) :
    storeWord (hi ++ lo) rs2 rs1 = hi ++ rs2 ++ rs1 ++ 0b010#3 ++ lo ++ 0b0100011#7 := by
  have hhi : (hi ++ lo).extractLsb' 5 7 = hi := BitVec.extractLsb'_append_eq_left
  have hlo : (hi ++ lo).extractLsb' 0 5 = lo := BitVec.extractLsb'_append_eq_right
  rw [storeWord, hhi, hlo]

/-- R87: an operation of the encoder makes the checks in order, and its word has the one match value of the stores. -/
theorem storeShape_of_format {mn : Mnemonic} (h : mn.format = .store) : StoreShape mn.instr := by
  refine ⟨fun s => (store_shape h s).congr fun rs2 rs1 v => ?done, fun hi lo rs2 rs1 => ?mask⟩
  case done => simp only [inRange_iff, lsImmMin, lsImmMax, storeWord, tc]
  case mask => rw [← storeWord_append, storeWord_and_mask]

/-- R87: the encoder does not look at the mnemonic token. -/
theorem encStore_congr_token (table : List RegEntry) (m m' : Token) (ops : List Token) :
    encStore table (m :: ops) = encStore table (m' :: ops) := by
  by_cases hops : ops.length = 3
  · obtain ⟨b, a, t, rfl⟩ := List.length_eq_three.1 hops
    rfl
  · have hcount (x : Token) : encStore table (x :: ops) = .error .invalidFormat :=
      encStore_count (hops ∘ Nat.succ.inj)
    rw [hcount, hcount]

/-- R88, R89: an operation of the encoder does what SW does with the same operands. -/
theorem exec_store_eq_execSw {mn : Mnemonic} (h : mn.format = .store) (ops : List Token) (s : State) :
    exec (mn.instr ops) s = execSw ops s := by
  rw [exec_eq_present, mnemonicOf_instr, operandsOf_instr, h, runEncoder, execSw,
    encStore_congr_token s.regTable mn.token Mnemonic.sw.token]

/-- Settles O27: the three operations have the shape of the encoder, which does not tell them apart. -/
theorem storeOperations : Obligations.StoreOperations :=
  ⟨storeShape_of_format (mn := .sb) rfl, storeShape_of_format (mn := .sh) rfl, storeShape_of_format (mn := .sw) rfl,
    fun ops s => ⟨exec_store_eq_execSw (mn := .sb) rfl ops s, exec_store_eq_execSw (mn := .sh) rfl ops s⟩⟩

/-! ## The order of the registers -/

/-- R87: the rs2 field of the word a store presents is that of the first operand. -/
theorem rs2Field_of_exec_store {mn : Mnemonic} {s t : State} {a b imm : Token} {w : Word} (h : mn.format = .store)
    (hexec : exec (mn.instr [a, b, imm]) s = .next t) (hw : t.rsp = some (.word w)) :
    ∃ n, regResolve s.regTable a = some n ∧ rs2Field w = u5 n := by
  have hrun := runEncoder_of_exec hexec hw
  rw [mnemonicOf_instr, operandsOf_instr, h, runEncoder] at hrun
  obtain ⟨_, _, _, _, n, _, _, htokens, ha, -, -, -, rfl⟩ := encStore_word hrun
  cases htokens
  exact ⟨n, ha, storeWord_rs2Field _ _ _⟩

/-- Settles O28: the two words hold different first operands, so their rs2 fields differ by O7. -/
theorem storeRegisterOrderMatters : Obligations.StoreRegisterOrderMatters := by
  intro i hi s t u a b imm w1 w2 hs hne h1 hw1 h2 hw2 heq
  obtain ⟨mn, hmn, rfl⟩ : ∃ mn : Mnemonic, mn.format = .store ∧ mn.instr = i := by
    simp only [List.mem_cons, List.not_mem_nil, or_false] at hi
    obtain rfl | rfl | rfl := hi
    exacts [⟨.sb, rfl, rfl⟩, ⟨.sh, rfl, rfl⟩, ⟨.sw, rfl, rfl⟩]
  obtain ⟨m, ha, hm⟩ := rs2Field_of_exec_store hmn h1 hw1
  obtain ⟨n, hb, hn⟩ := rs2Field_of_exec_store hmn h2 hw2
  obtain ⟨-, hdistinct⟩ := registerFieldsArePlainBinary s hs
  have hfields : u5 m = u5 n := by rw [← hm, heq, hn]
  exact hdistinct a b m n ha hb hne hfields

end Sys2Proof.Machine
end

section
/-! The Branch operations (spec/46_branch.md R92 to R96): their checks in order, without a range check, and their word
with the permuted immediate. Obligation O29. -/

namespace Sys2Proof.Machine

/-- R38 with the parts of the Branch permutation R45 as fields of their own. -/
theorem branchWord_append (v : BitVec 12) (f3 : BitVec 3) (rs2 rs1 : BitVec 5) :
    branchWord v rs2 rs1 f3 = v.extractLsb' 11 1 ++ v.extractLsb' 4 6 ++ rs2 ++ rs1 ++ f3 ++ v.extractLsb' 10 1 ++
      v.extractLsb' 0 4 ++ 0b1100011#7 := by
  rw [branchWord, branchHi7, branchLo5, BitVec.append_assoc (x₂ := v.extractLsb' 10 1), BitVec.cast_eq]

/-- R92: an operation of the encoder with function code `f3` makes the checks in order, and its word has the match value
that its function code gives with the operand fields 0. -/
theorem branchShape_of_funct3 {mn : Mnemonic} {f3 : BitVec 3} (h : mn.format = .branch)
    (hf : branchFunct3 mn.token = some f3) : BranchShape mn.instr f3 (branchWord 0 0 0 f3) := by
  refine ⟨fun s => (branch_shape h hf s).congr fun rs1 rs2 v => ?done, fun v rs1 rs2 => ?mask⟩
  case done => rw [branchWord_append, tc_eq_ofNat_emod]
  case mask => rw [← branchWord_append, branchWord_and_mask]

/-- Settles O29: the four operations have the shape of the encoder, with their own function codes. -/
theorem branchOperations : Obligations.BranchOperations :=
  ⟨branchShape_of_funct3 (mn := .beq) rfl rfl, branchShape_of_funct3 (mn := .bne) rfl rfl,
    branchShape_of_funct3 (mn := .blt) rfl rfl, branchShape_of_funct3 (mn := .bge) rfl rfl⟩

end Sys2Proof.Machine
end

section
/-! Reset, partly built tables and idle steps (spec/70_reset_and_hazards.md R116 to R118). Obligations O8 to O10. -/

namespace Sys2Proof.Machine

/-- R116, R117: a step under reset leaves nothing on the lines, so a block with the constant tables is as after reset. -/
theorem holdReset_setReset_false {s : State} (hs : TablesConstant s) : s.holdReset.setReset false = State.reset := by
  obtain ⟨⟨regTable, dispatchTable⟩, lines⟩ := s
  obtain ⟨rfl, rfl⟩ := hs
  rfl

/-- Settles O8, by the step under reset. -/
theorem resetDropsRequestsInFlight : Obligations.ResetDropsRequestsInFlight :=
  ⟨fun _ => step_underReset, fun s h hs => ⟨s.holdReset, step_underReset h, holdReset_setReset_false hs⟩⟩

/-- Settles O9: the tables are not built, so the step waits. -/
theorem partlyBuiltTableIsNotRead : Obligations.PartlyBuiltTableIsNotRead := by
  intro s hout hreg
  have hb : s.tablesBuilt = false := Bool.eq_false_iff.2 fun h => hreg (s.tablesBuilt_iff.1 h).1
  exact step_notBuilt hout hb

/-- Settles O10, by the idle step. -/
theorem noRequestNoResult : Obligations.NoRequestNoResult := fun _ ⟨hout, _⟩ hq => step_noRequest hout hq

end Sys2Proof.Machine
end

section
/-! The Jump operation (spec/47_jump.md R98, R99): its checks in order, the range of the halved immediate (D10, D11), its
word. Obligations O31 and O33. -/

namespace Sys2Proof.Machine

variable {s : State} {d t : Token} {rd : Fin 32} {imm : Int}

theorem answers_jal_iff {ops : List Token} {r : Result} :
    Answers (.jal ops) s r ↔ encJump s.regTable (Mnemonic.jal.token :: ops) = r := answers_iff

/-- R98: past the parse JAL answers its word where the half is in range, and refuses it otherwise. -/
theorem answers_jal_done (hd : regResolve s.regTable d = some rd) (ht : parseImm t = some imm) :
    Answers (.jal [d, t]) s
      (if inRange jalHMin jalHMax (half imm) then .word (jumpWord (tc 20 (half imm)) (u5 rd))
       else .error .immediateOutOfRange) :=
  answers_jal_iff.2 (encJump_done hd ht)

/-- Settles O31, check by check of the Jump encoder. -/
theorem jumpOperation : Obligations.JumpOperation := by
  intro s
  refine ⟨fun ops hops => answers_jal_iff.2 (encJump_count (hops ∘ Nat.succ.inj)),
    fun d t hd => answers_jal_iff.2 (encJump_register hd),
    fun d t rd hd ht => answers_jal_iff.2 (encJump_parse hd ht), ?outOfRange, ?word⟩
  case outOfRange =>
    intro d t rd imm hd ht hr
    have hdone := answers_jal_done hd ht
    rwa [if_neg (inRange_iff.not.2 hr)] at hdone
  case word =>
    intro d t rd imm hd ht hlo hhi
    have hdone := answers_jal_done hd ht
    rw [if_pos (inRange_iff.2 ⟨hlo, hhi⟩)] at hdone
    exact ⟨_, hdone, rfl, jumpWord_and_mask _ _⟩

/-- R98: with the halving toward zero (D10) the half is in range (D11) exactly for these token values. -/
theorem inRange_half_iff {v : Int} : inRange jalHMin jalHMax (half v) = true ↔ -1048577 ≤ v ∧ v ≤ 1048575 := by
  obtain ⟨nonneg, neg⟩ := halvingRoundsTowardZero
  rw [inRange_iff, jalHMin, jalHMax]
  obtain hv | hv := le_or_gt 0 v
  · rw [nonneg v hv]; omega
  · rw [neg v hv]; omega

/-- An instruction has one answer. -/
theorem Answers.unique {i : Instr} {r1 r2 : Result} (h1 : Answers i s r1) (h2 : Answers i s r2) : r1 = r2 :=
  (answers_iff.1 h1).symm.trans (answers_iff.1 h2)

/-- Settles O33: the token values whose half is in range are those with a word, all others are refused. -/
theorem jumpAcceptedTokenValues : Obligations.JumpAcceptedTokenValues := by
  intro s a imm rd d ha hd
  have hdone := answers_jal_done ha hd
  rw [← inRange_half_iff]
  cases hr : inRange jalHMin jalHMax (half d) with
  | true =>
    rw [if_pos hr] at hdone
    exact ⟨iff_of_true ⟨_, hdone⟩ rfl, iff_of_false (fun h => nomatch hdone.unique h) (not_not_intro rfl)⟩
  | false =>
    rw [if_neg (ne_true_of_eq_false hr)] at hdone
    exact ⟨iff_of_false (fun ⟨_, h⟩ => nomatch hdone.unique h) Bool.false_ne_true, iff_of_true hdone Bool.false_ne_true⟩

end Sys2Proof.Machine
end

section
/-! The error an instruction presents (spec/60_exceptions.md R101, R105): the kinds each format raises, and the first flaw
in the order of detection. Obligations O34 and O49. -/

namespace Sys2Proof.Machine

variable {i : List Token → Instr} {s : State} {mn : Mnemonic} {ops : List Token} {k : ErrorKind}

/-! ## The order of detection, format by format -/

/-- All a RegisterRegister operation can answer: an error of the count or of a register, or a word. -/
theorem RegisterRegisterShape.cases {f7 : BitVec 7} {f3 : BitVec 3} {pattern : Word}
    (h : RegisterRegisterShape i f7 f3 pattern) (s : State) (ops : List Token) :
    (ops.length ≠ 3 ∧ Answers (i ops) s (.error .invalidFormat)) ∨
    ∃ d a b, ops = [d, a, b] ∧
      (((regResolve s.regTable d = none ∨ regResolve s.regTable a = none ∨ regResolve s.regTable b = none) ∧
          Answers (i ops) s (.error .invalidRegister)) ∨
        ∃ rd rs1 rs2 w, regResolve s.regTable d = some rd ∧ regResolve s.regTable a = some rs1 ∧
          regResolve s.regTable b = some rs2 ∧ Answers (i ops) s (.word w)) := by
  obtain ⟨count, register, finish⟩ := h s
  by_cases hlen : ops.length = 3
  case neg => exact .inl ⟨hlen, count ops hlen⟩
  obtain ⟨d, a, b, rfl⟩ := List.length_eq_three.1 hlen
  refine .inr ⟨d, a, b, rfl, ?_⟩
  cases hd : regResolve s.regTable d with
  | none => exact .inl ⟨.inl rfl, register d a b (.inl hd)⟩
  | some rd =>
  cases ha : regResolve s.regTable a with
  | none => exact .inl ⟨.inr (.inl rfl), register d a b (.inr (.inl ha))⟩
  | some rs1 =>
  cases hb : regResolve s.regTable b with
  | none => exact .inl ⟨.inr (.inr rfl), register d a b (.inr (.inr hb))⟩
  | some rs2 =>
    obtain ⟨w, hw, -, -⟩ := finish d a b rd rs1 rs2 hd ha hb
    exact .inr ⟨rd, rs1, rs2, w, rfl, rfl, rfl, hw⟩

/-- All an operation with two registers and an immediate can answer: an error of the count, of a register or of the parse,
or what `done` gives. -/
theorem TwoRegisterImmediateShape.cases {done : Fin 32 → Fin 32 → Int → Result}
    (h : TwoRegisterImmediateShape i s done) (ops : List Token) :
    (ops.length ≠ 3 ∧ Answers (i ops) s (.error .invalidFormat)) ∨
    ∃ d a t, ops = [d, a, t] ∧
      (((regResolve s.regTable d = none ∨ regResolve s.regTable a = none) ∧
          Answers (i ops) s (.error .invalidRegister)) ∨
        ∃ r1 r2, regResolve s.regTable d = some r1 ∧ regResolve s.regTable a = some r2 ∧
          ((parseImm t = none ∧ Answers (i ops) s (.error .invalidImmediate)) ∨
            ∃ v, parseImm t = some v ∧ Answers (i ops) s (done r1 r2 v))) := by
  obtain ⟨count, register, parse, finish⟩ := h
  by_cases hlen : ops.length = 3
  case neg => exact .inl ⟨hlen, count ops hlen⟩
  obtain ⟨d, a, t, rfl⟩ := List.length_eq_three.1 hlen
  refine .inr ⟨d, a, t, rfl, ?_⟩
  cases hd : regResolve s.regTable d with
  | none => exact .inl ⟨.inl rfl, register d a t (.inl hd)⟩
  | some r1 =>
  cases ha : regResolve s.regTable a with
  | none => exact .inl ⟨.inr rfl, register d a t (.inr ha)⟩
  | some r2 =>
  refine .inr ⟨r1, r2, rfl, rfl, ?_⟩
  cases ht : parseImm t with
  | none => exact .inl ⟨rfl, parse d a t r1 r2 hd ha ht⟩
  | some v => exact .inr ⟨v, rfl, finish d a t r1 r2 v hd ha ht⟩

/-- All JAL can answer: an error of the count, of the register or of the parse, or what the range of the half gives. -/
theorem jal_cases (s : State) (ops : List Token) :
    (ops.length ≠ 2 ∧ Answers (.jal ops) s (.error .invalidFormat)) ∨
    ∃ d t, ops = [d, t] ∧
      ((regResolve s.regTable d = none ∧ Answers (.jal ops) s (.error .invalidRegister)) ∨
        ∃ rd, regResolve s.regTable d = some rd ∧
          ((parseImm t = none ∧ Answers (.jal ops) s (.error .invalidImmediate)) ∨
            ∃ v, parseImm t = some v ∧ Answers (.jal ops) s
              (if inRange jalHMin jalHMax (half v) then .word (jumpWord (tc 20 (half v)) (u5 rd))
               else .error .immediateOutOfRange))) := by
  obtain ⟨count, register, parse, -, -⟩ := jumpOperation s
  by_cases hlen : ops.length = 2
  case neg => exact .inl ⟨hlen, count ops hlen⟩
  obtain ⟨d, t, rfl⟩ := List.length_eq_two.1 hlen
  refine .inr ⟨d, t, rfl, ?_⟩
  cases hd : regResolve s.regTable d with
  | none => exact .inl ⟨rfl, register d t hd⟩
  | some rd =>
  refine .inr ⟨rd, rfl, ?_⟩
  cases ht : parseImm t with
  | none => exact .inl ⟨rfl, parse d t rd hd ht⟩
  | some v => exact .inr ⟨v, rfl, answers_jal_done hd ht⟩

/-! ## The kinds each format raises -/

theorem Answers.error_unique {j : Instr} {k' : ErrorKind} (h : Answers j s (.error k)) (h' : Answers j s (.error k')) :
    k = k' := Result.error.inj (h.unique h')

theorem RegisterRegisterShape.errorKind {f7 : BitVec 7} {f3 : BitVec 3} {pattern : Word}
    (h : RegisterRegisterShape i f7 f3 pattern) (hk : Answers (i ops) s (.error k)) :
    k ∈ [ErrorKind.invalidFormat, .invalidRegister] := by
  obtain ⟨-, ha⟩ | ⟨d, a, b, -, ⟨-, ha⟩ | ⟨rd, rs1, rs2, w, -, -, -, ha⟩⟩ := h.cases s ops
  · cases hk.error_unique ha; decide
  · cases hk.error_unique ha; decide
  · cases hk.unique ha

/-- A kind presented is one of the three of the checks, or comes from past the parse. -/
theorem TwoRegisterImmediateShape.errorKind {done : Fin 32 → Fin 32 → Int → Result}
    (h : TwoRegisterImmediateShape i s done) (hk : Answers (i ops) s (.error k)) :
    k ∈ [ErrorKind.invalidFormat, .invalidRegister, .invalidImmediate] ∨ ∃ r1 r2 v, done r1 r2 v = .error k := by
  obtain ⟨-, ha⟩ | ⟨d, a, t, -, ⟨-, ha⟩ | ⟨r1, r2, -, -, ⟨-, ha⟩ | ⟨v, -, ha⟩⟩⟩ := h.cases ops
  · cases hk.error_unique ha; exact .inl (by decide)
  · cases hk.error_unique ha; exact .inl (by decide)
  · cases hk.error_unique ha; exact .inl (by decide)
  · exact .inr ⟨r1, r2, v, ha.unique hk⟩

theorem TwoRegisterImmediateShape.errorKind_of_word {word : Fin 32 → Fin 32 → Int → Word}
    (h : TwoRegisterImmediateShape i s fun r1 r2 v => .word (word r1 r2 v)) (hk : Answers (i ops) s (.error k)) :
    k ∈ [ErrorKind.invalidFormat, .invalidRegister, .invalidImmediate] := by
  obtain hmem | ⟨r1, r2, v, hv⟩ := h.errorKind hk
  · exact hmem
  · cases hv

theorem TwoRegisterImmediateShape.errorKind_of_ite {ok : Int → Prop} [DecidablePred ok] {k' : ErrorKind}
    {word : Fin 32 → Fin 32 → Int → Word}
    (h : TwoRegisterImmediateShape i s fun r1 r2 v => if ok v then .word (word r1 r2 v) else .error k')
    (hk : Answers (i ops) s (.error k)) :
    k ∈ [ErrorKind.invalidFormat, .invalidRegister, .invalidImmediate, k'] := by
  obtain hmem | ⟨r1, r2, v, hv⟩ := h.errorKind hk
  · exact List.mem_append_left [k'] hmem
  · split at hv
    · cases hv
    · cases hv
      exact List.mem_append_right [ErrorKind.invalidFormat, .invalidRegister, .invalidImmediate] List.mem_cons_self

theorem jal_errorKind (hk : Answers (.jal ops) s (.error k)) :
    k ∈ [ErrorKind.invalidFormat, .invalidRegister, .invalidImmediate, .immediateOutOfRange] := by
  obtain ⟨-, ha⟩ | ⟨d, t, -, ⟨-, ha⟩ | ⟨rd, -, ⟨-, ha⟩ | ⟨v, -, ha⟩⟩⟩ := jal_cases s ops
  · cases hk.error_unique ha; decide
  · cases hk.error_unique ha; decide
  · cases hk.error_unique ha; decide
  · split at ha
    · cases hk.unique ha
    · cases hk.error_unique ha; decide

theorem registerImmediate_errorKind (h : mn.format = .registerImmediate) (hk : Answers (mn.instr ops) s (.error k)) :
    k ∈ if mn = Mnemonic.srli then
        [ErrorKind.invalidFormat, .invalidRegister, .invalidImmediate, .invalidShiftAmount]
      else [ErrorKind.invalidFormat, .invalidRegister, .invalidImmediate] := by
  obtain ⟨⟨addi, -⟩, ⟨andi, -⟩⟩ := addiAndiOperations
  obtain ⟨srli, -, -⟩ := srliOperation
  obtain rfl | rfl | rfl := registerImmediate_cases h
  · exact (addi s).errorKind_of_word hk
  · exact (andi s).errorKind_of_word hk
  · exact (srli s).errorKind_of_ite hk

/-- What stands on the result output after an instruction is what it answers. -/
theorem answers_of_exec {j : Instr} {t : State} {r : Result} (h : exec j s = .next t) (hr : t.rsp = some r) :
    Answers j s r := by
  cases (exec_eq_present j s).symm.trans h
  exact answers_iff.2 (Option.some.inj hr)

/-- Settles O34, format by format. -/
theorem errorKindsPerFormat : Obligations.ErrorKindsPerFormat := by
  intro j s t k hexec hrsp
  have hk : Answers ((mnemonicOf j).instr (operandsOf j)) s (.error k) :=
    (instr_mnemonicOf j).symm ▸ answers_of_exec hexec hrsp
  split
  next hf =>
    obtain ⟨f7, f3, hc, -⟩ := rrConstants_token hf
    exact (registerRegister_shape hf hc).errorKind hk
  next hf => exact registerImmediate_errorKind hf hk
  next hf =>
    obtain ⟨f3, hc, -⟩ := loadFunct3_token hf
    exact (load_shape hf hc s).errorKind_of_ite hk
  next hf => exact (store_shape hf s).errorKind_of_ite hk
  next hf =>
    obtain ⟨f3, hc, -⟩ := branchFunct3_token hf
    exact (branch_shape hf hc s).errorKind_of_word hk
  next hf =>
    rw [jump_cases hf] at hk
    exact jal_errorKind hk

/-! ## The first flaw -/

/-- `r` is the result of an instruction whose first flaw is `o`: the flaw's error, or a word where there is none. -/
@[simp] def Reports : (o : Option Flaw) → (r : Result) → Prop
  | some f, r => r = .error (flawKind f)
  | none, r => ∃ w, r = .word w

/-- `j` completes with the error of the flaw `o`, or with a word where there is none. -/
def AnswersFlaw (j : Instr) (s : State) (o : Option Flaw) : Prop :=
  ∃ r, Answers j s r ∧ Reports o r

theorem flawRR_count (h : ops.length ≠ 3) : flawRR ops = some .operandCount := by
  unfold flawRR; split
  · simp at h
  · rfl

theorem flawRRI_count {range : Int → Option Flaw} (h : ops.length ≠ 3) : flawRRI range ops = some .operandCount := by
  unfold flawRRI; split
  · simp at h
  · rfl

theorem flawJump_count (h : ops.length ≠ 2) : flawJump ops = some .operandCount := by
  unfold flawJump; split
  · simp at h
  · rfl

/-- The range flaw of a Load, a Store and a halved Jump immediate, and the answer it stands for. -/
theorem reports_range (ok : Bool) (f : Flaw) (w : Word) :
    Reports (if ok then none else some f) (if ok then .word w else .error (flawKind f)) := by
  cases ok with
  | true => exact ⟨w, rfl⟩
  | false => exact rfl

theorem RegisterRegisterShape.answersFlaw {f7 : BitVec 7} {f3 : BitVec 3} {pattern : Word}
    (h : RegisterRegisterShape i f7 f3 pattern) (hs : s.regTable = registerRom) (ops : List Token) :
    AnswersFlaw (i ops) s (flawRR ops) := by
  have hcases := h.cases s ops
  rw [hs] at hcases
  obtain ⟨hlen, ha⟩ | ⟨d, a, b, rfl, ⟨hmiss, ha⟩ | ⟨rd, rs1, rs2, w, hd, hrs1, hrs2, ha⟩⟩ := hcases
  · exact ⟨_, ha, by rw [flawRR_count hlen]; rfl⟩
  · exact ⟨_, ha, by obtain hmiss | hmiss | hmiss := hmiss <;> simp [flawRR, hmiss, flawKind]⟩
  · exact ⟨_, ha, by simp [flawRR, hd, hrs1, hrs2]⟩

theorem TwoRegisterImmediateShape.answersFlaw {done : Fin 32 → Fin 32 → Int → Result} {range : Int → Option Flaw}
    (h : TwoRegisterImmediateShape i s done) (hs : s.regTable = registerRom)
    (hdone : ∀ r1 r2 v, Reports (range v) (done r1 r2 v)) (ops : List Token) :
    AnswersFlaw (i ops) s (flawRRI range ops) := by
  have hcases := h.cases ops
  rw [hs] at hcases
  obtain ⟨hlen, ha⟩ | ⟨d, a, t, rfl, ⟨hmiss, ha⟩ | ⟨r1, r2, h1, h2, ⟨ht, ha⟩ | ⟨v, ht, ha⟩⟩⟩ := hcases
  · exact ⟨_, ha, by rw [flawRRI_count hlen]; rfl⟩
  · exact ⟨_, ha, by obtain hmiss | hmiss := hmiss <;> simp [flawRRI, hmiss, flawKind]⟩
  · exact ⟨_, ha, by simp [flawRRI, h1, h2, ht, flawKind]⟩
  · exact ⟨_, ha, by simpa [flawRRI, h1, h2, ht] using hdone r1 r2 v⟩

theorem jal_answersFlaw (hs : s.regTable = registerRom) (ops : List Token) :
    AnswersFlaw (.jal ops) s (flawJump ops) := by
  have hcases := jal_cases s ops
  rw [hs] at hcases
  obtain ⟨hlen, ha⟩ | ⟨d, t, rfl, ⟨hmiss, ha⟩ | ⟨rd, hd, ⟨ht, ha⟩ | ⟨v, ht, ha⟩⟩⟩ := hcases
  · exact ⟨_, ha, by rw [flawJump_count hlen]; rfl⟩
  · exact ⟨_, ha, by simp [flawJump, hmiss, flawKind]⟩
  · exact ⟨_, ha, by simp [flawJump, hd, ht, flawKind]⟩
  · refine ⟨_, ha, ?_⟩
    simp only [flawJump, hd, ht, Option.isSome_some, if_true]
    exact reports_range _ .immediateRange _

theorem registerImmediate_answersFlaw (h : mn.format = .registerImmediate) (hs : s.regTable = registerRom)
    (ops : List Token) :
    AnswersFlaw (mn.instr ops) s
      (flawRRI (fun v => if mn = .srli ∧ inRange 0 31 v = false then some .shiftRange else none) ops) := by
  obtain ⟨⟨addi, -⟩, ⟨andi, -⟩⟩ := addiAndiOperations
  obtain rfl | rfl | rfl := registerImmediate_cases h
  · exact (addi s).answersFlaw hs (fun rd rs1 v => by rw [if_neg nofun]; exact ⟨_, rfl⟩) ops
  · exact (andi s).answersFlaw hs (fun rd rs1 v => by rw [if_neg nofun]; exact ⟨_, rfl⟩) ops
  · refine (registerImmediate_shape rfl s).answersFlaw hs (fun rd rs1 v => ?_) ops
    rw [if_pos rfl]
    cases hr : inRange 0 31 v with
    | true => exact ⟨_, rfl⟩
    | false => exact rfl

/-- R105: with the constant tables every instruction answers the error of its first flaw, or a word. -/
theorem exec_answersFlaw (j : Instr) (hs : s.regTable = registerRom) : AnswersFlaw j s j.flaw := by
  have hj := instr_mnemonicOf j
  generalize hops : operandsOf j = ops at hj
  generalize hmn : mnemonicOf j = mn at hj
  rw [Instr.flaw, hops, hmn, ← hj]
  split
  next hf =>
    obtain ⟨f7, f3, hc, -⟩ := rrConstants_token hf
    exact (registerRegister_shape hf hc).answersFlaw hs ops
  next hf => exact registerImmediate_answersFlaw hf hs ops
  next hf =>
    obtain ⟨f3, hc, -⟩ := loadFunct3_token hf
    exact (load_shape hf hc s).answersFlaw hs (fun _ _ _ => reports_range _ .immediateRange _) ops
  next hf => exact (store_shape hf s).answersFlaw hs (fun _ _ _ => reports_range _ .immediateRange _) ops
  next hf =>
    obtain ⟨f3, hc, -⟩ := branchFunct3_token hf
    exact (branch_shape hf hc s).answersFlaw (range := fun _ => none) hs (fun _ _ _ => ⟨_, rfl⟩) ops
  next hf =>
    obtain rfl := jump_cases hf
    exact jal_answersFlaw hs ops

/-- Settles O49, from what each format's operations answer to their first flaw. -/
theorem firstFlawIsTheErrorRaised : Obligations.FirstFlawIsTheErrorRaised := by
  rintro j s ⟨hreg, -⟩
  obtain ⟨r, hanswers, hr⟩ := exec_answersFlaw j hreg
  refine ⟨fun f hf => ?flaw, fun hf => ?word⟩
  case flaw =>
    rw [hf] at hr
    exact hr ▸ hanswers
  case word =>
    rw [hf] at hr
    obtain ⟨w, rfl⟩ := hr
    exact ⟨w, hanswers⟩

end Sys2Proof.Machine
end
